-- ==== Sys2Proof/Word.lean ====
section
/-! DEFINITION. The two word widths of the machine (00_scope.md rule R8): one operand and address
size of 32 bits, and the byte that memory and the ports hold. Widening, byte order and bit fields
are not here: they stand in Decode.lean and under Machine/. -/

namespace Sys2Proof

/-- A 32-bit register, address or operand (R8, R20). -/
abbrev Word := BitVec 32

/-- One byte of memory, of the instruction stream or of a port (R31, R32). -/
abbrev Byte := BitVec 8

end Sys2Proof
end

