-- ==== Sys2Proof/Syntax.lean ====
section
/-! DEFINITION. The instructions as terms: one constructor of `Instr` per row of
spec/opcode_table.json. Register fields are already names, immediates and displacements are still
the encoded bits (their widening belongs to the meanings). -/

namespace Sys2Proof

/-- The eight general registers, in the order of their numbers (R20, R100). -/
inductive Reg where
  | eax | ecx | edx | ebx | esp | ebp | esi | edi
  deriving DecidableEq, Repr, Inhabited

/-- A ModR/M memory operand, one constructor per shape of 30_encoding.md rule R74 to rule R79. -/
inductive MemOp where
  /-- `mod = 00b`, `rm` neither 100b nor 101b: `[reg]` (R76). -/
  | base (b : Reg)
  /-- `mod = 00b`, `rm = 101b`: `[disp32]`, no base register (R76). -/
  | abs (disp : Word)
  /-- `mod = 01b`, `rm` not 100b: `[reg + disp8]` (R77). -/
  | baseDisp8 (b : Reg) (disp : Byte)
  /-- `mod = 10b`, `rm` not 100b: `[reg + disp32]` (R78). -/
  | baseDisp32 (b : Reg) (disp : Word)
  /-- `mod = 00b`, `rm = 100b`: a SIB byte; its effective address is fatal (R79). -/
  | sib (sib : Byte)
  /-- `mod = 01b`, `rm = 100b`: a SIB byte and disp8; its effective address is fatal (R79). -/
  | sibDisp8 (sib : Byte) (disp : Byte)
  /-- `mod = 10b`, `rm = 100b`: a SIB byte and disp32; its effective address is fatal (R79). -/
  | sibDisp32 (sib : Byte) (disp : Word)
  deriving DecidableEq, Repr, Inhabited

/-- The rm operand (R80, R82): a register (`mod = 11b`) or a 4-byte memory location. -/
inductive RM where
  | reg (r : Reg)
  | mem (m : MemOp)
  deriving DecidableEq, Repr, Inhabited

/-- The 30 instructions of spec/opcode_table.json (R88, R89, R102). -/
inductive Instr where
  /-- MOV r32, imm32: `B8+r` (R110). -/
  | movRImm32 (r : Reg) (imm : Word)
  /-- MOV r/m32, r32: `89 /r` (R111). -/
  | movRmR (rm : RM) (r : Reg)
  /-- MOV r32, r/m32: `8B /r` (R112). -/
  | movRRm (r : Reg) (rm : RM)
  /-- MOV r/m32, imm32: `C7 /0` (R113). -/
  | movRmImm32 (rm : RM) (imm : Word)
  /-- ADD r/m32, r32: `01 /r` (R122). -/
  | addRmR (rm : RM) (r : Reg)
  /-- ADD r/m32, imm8: `83 /0` (R123). -/
  | addRmImm8 (rm : RM) (imm : Byte)
  /-- SUB r/m32, imm8: `83 /5` (R124). -/
  | subRmImm8 (rm : RM) (imm : Byte)
  /-- CMP r/m32, imm8: `83 /7` (R125). -/
  | cmpRmImm8 (rm : RM) (imm : Byte)
  /-- INC r/m32: `FF /0` (R126). -/
  | incRm (rm : RM)
  /-- PUSH r32: `50+r` (R142). -/
  | pushR (r : Reg)
  /-- PUSH imm32: `68` (R143). -/
  | pushImm32 (imm : Word)
  /-- PUSH imm8: `6A` (R144). -/
  | pushImm8 (imm : Byte)
  /-- POP r32: `58+r` (R145). -/
  | popR (r : Reg)
  /-- LEAVE: `C9` (R146). -/
  | leave
  /-- JMP rel8: `EB` (R160). -/
  | jmpRel8 (rel : Byte)
  /-- JMP rel32: `E9` (R161). -/
  | jmpRel32 (rel : Word)
  /-- JO rel8: `70` (R163). -/
  | jo (rel : Byte)
  /-- JNO rel8: `71` (R164). -/
  | jno (rel : Byte)
  /-- JC rel8: `72` (R165). -/
  | jc (rel : Byte)
  /-- JNC rel8: `73` (R166). -/
  | jnc (rel : Byte)
  /-- JZ rel8: `74` (R167). -/
  | jz (rel : Byte)
  /-- JNZ rel8: `75` (R168). -/
  | jnz (rel : Byte)
  /-- JS rel8: `78` (R169). -/
  | js (rel : Byte)
  /-- JNS rel8: `79` (R170). -/
  | jns (rel : Byte)
  /-- JL rel8: `7C` (R171). -/
  | jl (rel : Byte)
  /-- JLE rel8: `7E` (R172). -/
  | jle (rel : Byte)
  /-- CALL rel32: `E8` (R173). -/
  | callRel32 (rel : Word)
  /-- RET: `C3` (R174). -/
  | ret
  /-- IN AL, DX: `EC` (R181). -/
  | inAlDx
  /-- OUT DX, AL: `EE` (R182). -/
  | outDxAl
  deriving DecidableEq, Repr, Inhabited

end Sys2Proof
end

