-- ==== Sys2Proof/WellFormed.lean ====
section
/-! DEFINITION. Which instruction terms have an encoding. The only thing a term can get wrong is the
base register of a memory operand: `rm = 100b` is the SIB escape, and `rm = 101b` with `mod = 00b`
is the absolute form (30_encoding.md rule R73, rule R74, rule R76). Every check is a `Bool`. -/

namespace Sys2Proof

/-- A base register that the field `rm` can name in this `mod` (R73, R76). -/
def MemOp.wf : MemOp → Bool
  | .base b => b != .esp && b != .ebp
  | .abs _ => true
  | .baseDisp8 b _ => b != .esp
  | .baseDisp32 b _ => b != .esp
  | .sib _ => true
  | .sibDisp8 _ _ => true
  | .sibDisp32 _ _ => true

/-- With `mod = 11b` every register can be named, ESP among them (R80). -/
def RM.wf : RM → Bool
  | .reg _ => true
  | .mem m => m.wf

/-- The instruction has an encoding. -/
def Instr.wf : Instr → Bool
  | .movRImm32 _ _ => true
  | .movRmR rm _ => rm.wf
  | .movRRm _ rm => rm.wf
  | .movRmImm32 rm _ => rm.wf
  | .addRmR rm _ => rm.wf
  | .addRmImm8 rm _ => rm.wf
  | .subRmImm8 rm _ => rm.wf
  | .cmpRmImm8 rm _ => rm.wf
  | .incRm rm => rm.wf
  | .pushR _ => true
  | .pushImm32 _ => true
  | .pushImm8 _ => true
  | .popR _ => true
  | .leave => true
  | .jmpRel8 _ => true
  | .jmpRel32 _ => true
  | .jo _ => true
  | .jno _ => true
  | .jc _ => true
  | .jnc _ => true
  | .jz _ => true
  | .jnz _ => true
  | .js _ => true
  | .jns _ => true
  | .jl _ => true
  | .jle _ => true
  | .callRel32 _ => true
  | .ret => true
  | .inAlDx => true
  | .outDxAl => true

end Sys2Proof
end

