-- ==== Sys2Proof/Decode.lean ====
section
/-! DEFINITION. The decoder, total on any list of bytes and rejecting by name, and after it the
encoder, the instruction lengths and the rows of spec/opcode_table.json. The decoder reads its bytes
through a cursor in the order of 30_encoding.md rule R90: opcode, ModR/M, SIB, displacement, group
check, immediate. A read past the end of the bytes is rejected with the offset and width of the read,
so that the loop can name the out-of-bounds fetch. -/

namespace Sys2Proof

/-- Why the decoder gives no instruction. -/
inductive DecodeError where
  /-- No handler for this opcode byte (R92). -/
  | unimplementedOpcode (op : Byte)
  /-- No sub-operation for this `reg` field of a group opcode (R91). -/
  | unimplementedExtension (op : Byte) (ext : BitVec 3)
  /-- A read of `width` bytes at this offset from the opcode byte finds fewer bytes (R90, R52). -/
  | truncated (offset width : Nat)
  deriving DecidableEq, Repr

/-- The decode cursor `p` (30_encoding.md, before R72): how many bytes of the instruction have been
read, and the bytes that follow. -/
structure Cursor where
  pos : Nat
  rest : List Byte
  deriving DecidableEq, Repr

/-! ## Fields and byte order -/

/-- The register of a 3-bit field (R20, R100). -/
def Reg.ofField (f : BitVec 3) : Reg :=
  match f.toNat with
  | 0 => .eax
  | 1 => .ecx
  | 2 => .edx
  | 3 => .ebx
  | 4 => .esp
  | 5 => .ebp
  | 6 => .esi
  | _ => .edi

/-- The 3-bit field that names a register (R20, R100). -/
def Reg.field : Reg → BitVec 3
  | .eax => 0#3
  | .ecx => 1#3
  | .edx => 2#3
  | .ebx => 3#3
  | .esp => 4#3
  | .ebp => 5#3
  | .esi => 6#3
  | .edi => 7#3

/-- Little-endian assembly of four bytes, the lowest address first (R54). -/
def word32 (b0 b1 b2 b3 : Byte) : Word := b3 ++ b2 ++ b1 ++ b0

/-- The four bytes of a word, the lowest address first (R54). -/
def bytes32 (v : Word) : List Byte :=
  [v.extractLsb' 0 8, v.extractLsb' 8 8, v.extractLsb' 16 8, v.extractLsb' 24 8]

/-! ## Reading at the cursor -/

/-- `Fetch8()` (R11). -/
def fetch8 (c : Cursor) : Except DecodeError (Byte × Cursor) :=
  match c.rest with
  | b :: bs => .ok (b, ⟨c.pos + 1, bs⟩)
  | [] => .error (.truncated c.pos 1)

/-- `Fetch32()` (R11, R54). -/
def fetch32 (c : Cursor) : Except DecodeError (Word × Cursor) :=
  match c.rest with
  | b0 :: b1 :: b2 :: b3 :: bs => .ok (word32 b0 b1 b2 b3, ⟨c.pos + 4, bs⟩)
  | _ => .error (.truncated c.pos 4)

/-- The SIB byte and the displacement that follow a ModR/M byte with `rm = 100b` and `mod` not 11b
(R73, R74). -/
def decodeSib (mod : BitVec 2) (c : Cursor) : Except DecodeError (MemOp × Cursor) := do
  let (sib, c) ← fetch8 c
  if mod = 2#2 then
    let (disp, c) ← fetch32 c
    .ok (.sibDisp32 sib disp, c)
  else if mod = 1#2 then
    let (disp, c) ← fetch8 c
    .ok (.sibDisp8 sib disp, c)
  else
    .ok (.sib sib, c)

/-- The displacement of a memory operand without a SIB byte (R74, R76 to R78). -/
def decodeBase (mod : BitVec 2) (rm : BitVec 3) (c : Cursor) : Except DecodeError (MemOp × Cursor) := do
  if mod = 2#2 then
    let (disp, c) ← fetch32 c
    .ok (.baseDisp32 (Reg.ofField rm) disp, c)
  else if mod = 1#2 then
    let (disp, c) ← fetch8 c
    .ok (.baseDisp8 (Reg.ofField rm) disp, c)
  else if rm = 5#3 then
    let (disp, c) ← fetch32 c
    .ok (.abs disp, c)
  else
    .ok (.base (Reg.ofField rm), c)

/-- `DecodeModRM()` (R72 to R75, R80): the `reg` field and the rm operand. -/
def decodeModRM (c : Cursor) : Except DecodeError (BitVec 3 × RM × Cursor) := do
  let (b, c) ← fetch8 c
  let mod := b.extractLsb' 6 2
  let reg := b.extractLsb' 3 3
  let rm := b.extractLsb' 0 3
  if mod = 3#2 then
    .ok (reg, .reg (Reg.ofField rm), c)
  else if rm = 4#3 then
    let (m, c) ← decodeSib mod c
    .ok (reg, .mem m, c)
  else
    let (m, c) ← decodeBase mod rm c
    .ok (reg, .mem m, c)

/-! ## The formats of rule R71 -/

/-- `OP`: no byte after the opcode. -/
def formatOp (mk : Instr) (c : Cursor) : Except DecodeError (Instr × Cursor) := .ok (mk, c)

/-- `OP_I8` and `OP_REL8`: one byte after the opcode. -/
def formatI8 (mk : Byte → Instr) (c : Cursor) : Except DecodeError (Instr × Cursor) := do
  let (v, c) ← fetch8 c
  .ok (mk v, c)

/-- `OP_I32` and `OP_REL32`: four bytes after the opcode. -/
def formatI32 (mk : Word → Instr) (c : Cursor) : Except DecodeError (Instr × Cursor) := do
  let (v, c) ← fetch32 c
  .ok (mk v, c)

/-- `OP_MODRM` with a register in the `reg` field (R81). -/
def formatModRM (mk : RM → Reg → Instr) (c : Cursor) : Except DecodeError (Instr × Cursor) := do
  let (x, rm, c) ← decodeModRM c
  .ok (mk rm (Reg.ofField x), c)

/-- The `83` group (R89): the sub-operation is checked after the ModR/M descriptor and before the
immediate (R91). -/
def group83 (op : Byte) (c : Cursor) : Except DecodeError (Instr × Cursor) := do
  let (x, rm, c) ← decodeModRM c
  if x = 0#3 then formatI8 (.addRmImm8 rm) c
  else if x = 5#3 then formatI8 (.subRmImm8 rm) c
  else if x = 7#3 then formatI8 (.cmpRmImm8 rm) c
  else .error (.unimplementedExtension op x)

/-- The `C7` group (R89, R91, R113). -/
def groupC7 (op : Byte) (c : Cursor) : Except DecodeError (Instr × Cursor) := do
  let (x, rm, c) ← decodeModRM c
  if x = 0#3 then formatI32 (.movRmImm32 rm) c
  else .error (.unimplementedExtension op x)

/-- The `FF` group (R89, R91, R126). -/
def groupFF (op : Byte) (c : Cursor) : Except DecodeError (Instr × Cursor) := do
  let (x, rm, c) ← decodeModRM c
  if x = 0#3 then .ok (.incRm rm, c)
  else .error (.unimplementedExtension op x)

/-- The `+r` families, whose opcode byte names a register in bits 2-0 (R71), and after them the
opcode bytes with no handler (R92). -/
def decodePlusR (op : Byte) (c : Cursor) : Except DecodeError (Instr × Cursor) :=
  let family := op.extractLsb' 3 5
  let r := Reg.ofField (op.extractLsb' 0 3)
  if family = 0b10111#5 then formatI32 (.movRImm32 r) c
  else if family = 0b01010#5 then formatOp (.pushR r) c
  else if family = 0b01011#5 then formatOp (.popR r) c
  else .error (.unimplementedOpcode op)

/-- The dispatch table (R88): the handler's reading of the bytes after the opcode byte `op`. -/
def dispatchOp (op : Byte) (c : Cursor) : Except DecodeError (Instr × Cursor) :=
  match op.toNat with
  | 0x01 => formatModRM .addRmR c
  | 0x68 => formatI32 .pushImm32 c
  | 0x6A => formatI8 .pushImm8 c
  | 0x70 => formatI8 .jo c
  | 0x71 => formatI8 .jno c
  | 0x72 => formatI8 .jc c
  | 0x73 => formatI8 .jnc c
  | 0x74 => formatI8 .jz c
  | 0x75 => formatI8 .jnz c
  | 0x78 => formatI8 .js c
  | 0x79 => formatI8 .jns c
  | 0x7C => formatI8 .jl c
  | 0x7E => formatI8 .jle c
  | 0x83 => group83 op c
  | 0x89 => formatModRM .movRmR c
  | 0x8B => formatModRM (fun rm r => .movRRm r rm) c
  | 0xC3 => formatOp .ret c
  | 0xC7 => groupC7 op c
  | 0xC9 => formatOp .leave c
  | 0xE8 => formatI32 .callRel32 c
  | 0xE9 => formatI32 .jmpRel32 c
  | 0xEB => formatI8 .jmpRel8 c
  | 0xEC => formatOp .inAlDx c
  | 0xEE => formatOp .outDxAl c
  | 0xFF => groupFF op c
  | _ => decodePlusR op c

/-- The decoder (R70, R90, R101): the instruction at the start of the bytes and the cursor past it. -/
def decode (bs : List Byte) : Except DecodeError (Instr × Cursor) := do
  let (op, c) ← fetch8 ⟨0, bs⟩
  dispatchOp op c

/-! ## The encoder and the lengths -/

/-- The `mod` field of an rm operand (R76 to R80). -/
def RM.modField : RM → BitVec 2
  | .reg _ => 3#2
  | .mem (.base _) => 0#2
  | .mem (.abs _) => 0#2
  | .mem (.baseDisp8 _ _) => 1#2
  | .mem (.baseDisp32 _ _) => 2#2
  | .mem (.sib _) => 0#2
  | .mem (.sibDisp8 _ _) => 1#2
  | .mem (.sibDisp32 _ _) => 2#2

/-- The `rm` field of an rm operand (R76 to R80). -/
def RM.rmField : RM → BitVec 3
  | .reg r => r.field
  | .mem (.base b) => b.field
  | .mem (.abs _) => 5#3
  | .mem (.baseDisp8 b _) => b.field
  | .mem (.baseDisp32 b _) => b.field
  | .mem (.sib _) => 4#3
  | .mem (.sibDisp8 _ _) => 4#3
  | .mem (.sibDisp32 _ _) => 4#3

/-- The ModR/M byte with `x` in its `reg` field (R72). -/
def RM.modrm (x : BitVec 3) (rm : RM) : Byte := rm.modField ++ x ++ rm.rmField

/-- The SIB and displacement bytes after the ModR/M byte (R73, R74). -/
def RM.tail : RM → List Byte
  | .reg _ => []
  | .mem (.base _) => []
  | .mem (.abs d) => bytes32 d
  | .mem (.baseDisp8 _ d) => [d]
  | .mem (.baseDisp32 _ d) => bytes32 d
  | .mem (.sib s) => [s]
  | .mem (.sibDisp8 s d) => [s, d]
  | .mem (.sibDisp32 s d) => s :: bytes32 d

/-- The ModR/M descriptor's bytes. -/
def RM.bytes (x : BitVec 3) (rm : RM) : List Byte := rm.modrm x :: rm.tail

/-- The opcode byte of a `+r` family (R71). -/
def plusR (family : BitVec 5) (r : Reg) : Byte := family ++ r.field

/-- The bytes of an instruction (R70, R71, R88, R89). -/
def encode : Instr → List Byte
  | .movRImm32 r imm => plusR 0b10111#5 r :: bytes32 imm
  | .movRmR rm r => 0x89#8 :: rm.bytes r.field
  | .movRRm r rm => 0x8B#8 :: rm.bytes r.field
  | .movRmImm32 rm imm => 0xC7#8 :: (rm.bytes 0#3 ++ bytes32 imm)
  | .addRmR rm r => 0x01#8 :: rm.bytes r.field
  | .addRmImm8 rm imm => 0x83#8 :: (rm.bytes 0#3 ++ [imm])
  | .subRmImm8 rm imm => 0x83#8 :: (rm.bytes 5#3 ++ [imm])
  | .cmpRmImm8 rm imm => 0x83#8 :: (rm.bytes 7#3 ++ [imm])
  | .incRm rm => 0xFF#8 :: rm.bytes 0#3
  | .pushR r => [plusR 0b01010#5 r]
  | .pushImm32 imm => 0x68#8 :: bytes32 imm
  | .pushImm8 imm => [0x6A#8, imm]
  | .popR r => [plusR 0b01011#5 r]
  | .leave => [0xC9#8]
  | .jmpRel8 rel => [0xEB#8, rel]
  | .jmpRel32 rel => 0xE9#8 :: bytes32 rel
  | .jo rel => [0x70#8, rel]
  | .jno rel => [0x71#8, rel]
  | .jc rel => [0x72#8, rel]
  | .jnc rel => [0x73#8, rel]
  | .jz rel => [0x74#8, rel]
  | .jnz rel => [0x75#8, rel]
  | .js rel => [0x78#8, rel]
  | .jns rel => [0x79#8, rel]
  | .jl rel => [0x7C#8, rel]
  | .jle rel => [0x7E#8, rel]
  | .callRel32 rel => 0xE8#8 :: bytes32 rel
  | .ret => [0xC3#8]
  | .inAlDx => [0xEC#8]
  | .outDxAl => [0xEE#8]

/-- `m` of rule R84: how many bytes the decoder consumes after the ModR/M byte. -/
def RM.extra : RM → Nat
  | .reg _ => 0
  | .mem (.base _) => 0
  | .mem (.abs _) => 4
  | .mem (.baseDisp8 _ _) => 1
  | .mem (.baseDisp32 _ _) => 4
  | .mem (.sib _) => 1
  | .mem (.sibDisp8 _ _) => 2
  | .mem (.sibDisp32 _ _) => 5

/-- `len` of rule R71 and rule R84. -/
def Instr.length : Instr → Nat
  | .movRImm32 _ _ => 5
  | .movRmR rm _ => 2 + rm.extra
  | .movRRm _ rm => 2 + rm.extra
  | .movRmImm32 rm _ => 6 + rm.extra
  | .addRmR rm _ => 2 + rm.extra
  | .addRmImm8 rm _ => 3 + rm.extra
  | .subRmImm8 rm _ => 3 + rm.extra
  | .cmpRmImm8 rm _ => 3 + rm.extra
  | .incRm rm => 2 + rm.extra
  | .pushR _ => 1
  | .pushImm32 _ => 5
  | .pushImm8 _ => 2
  | .popR _ => 1
  | .leave => 1
  | .jmpRel8 _ => 2
  | .jmpRel32 _ => 5
  | .jo _ => 2
  | .jno _ => 2
  | .jc _ => 2
  | .jnc _ => 2
  | .jz _ => 2
  | .jnz _ => 2
  | .js _ => 2
  | .jns _ => 2
  | .jl _ => 2
  | .jle _ => 2
  | .callRel32 _ => 5
  | .ret => 1
  | .inAlDx => 1
  | .outDxAl => 1

/-- The longest instruction (R84): eleven bytes. -/
def maxLength : Nat := 11

/-! ## The opcode table -/

/-- `match` and `mask` of the row of spec/opcode_table.json that an instruction belongs to, over the
16 bits `(byte0 << 8) | byte1` (R102). -/
def Instr.row : Instr → BitVec 16 × BitVec 16
  | .movRImm32 _ _ => (0xB800#16, 0xF800#16)
  | .movRmR _ _ => (0x8900#16, 0xFF00#16)
  | .movRRm _ _ => (0x8B00#16, 0xFF00#16)
  | .movRmImm32 _ _ => (0xC700#16, 0xFF38#16)
  | .addRmR _ _ => (0x0100#16, 0xFF00#16)
  | .addRmImm8 _ _ => (0x8300#16, 0xFF38#16)
  | .subRmImm8 _ _ => (0x8328#16, 0xFF38#16)
  | .cmpRmImm8 _ _ => (0x8338#16, 0xFF38#16)
  | .incRm _ => (0xFF00#16, 0xFF38#16)
  | .pushR _ => (0x5000#16, 0xF800#16)
  | .pushImm32 _ => (0x6800#16, 0xFF00#16)
  | .pushImm8 _ => (0x6A00#16, 0xFF00#16)
  | .popR _ => (0x5800#16, 0xF800#16)
  | .leave => (0xC900#16, 0xFF00#16)
  | .jmpRel8 _ => (0xEB00#16, 0xFF00#16)
  | .jmpRel32 _ => (0xE900#16, 0xFF00#16)
  | .jo _ => (0x7000#16, 0xFF00#16)
  | .jno _ => (0x7100#16, 0xFF00#16)
  | .jc _ => (0x7200#16, 0xFF00#16)
  | .jnc _ => (0x7300#16, 0xFF00#16)
  | .jz _ => (0x7400#16, 0xFF00#16)
  | .jnz _ => (0x7500#16, 0xFF00#16)
  | .js _ => (0x7800#16, 0xFF00#16)
  | .jns _ => (0x7900#16, 0xFF00#16)
  | .jl _ => (0x7C00#16, 0xFF00#16)
  | .jle _ => (0x7E00#16, 0xFF00#16)
  | .callRel32 _ => (0xE800#16, 0xFF00#16)
  | .ret => (0xC300#16, 0xFF00#16)
  | .inAlDx => (0xEC00#16, 0xFF00#16)
  | .outDxAl => (0xEE00#16, 0xFF00#16)

/-- Every row's `match` and `mask`, in the order of spec/opcode_table.json (R102). -/
def opcodeRows : List (BitVec 16 × BitVec 16) :=
  [(0xB800#16, 0xF800#16), (0x8900#16, 0xFF00#16), (0x8B00#16, 0xFF00#16), (0xC700#16, 0xFF38#16),
   (0x0100#16, 0xFF00#16), (0x8300#16, 0xFF38#16), (0x8328#16, 0xFF38#16), (0x8338#16, 0xFF38#16),
   (0xFF00#16, 0xFF38#16), (0x5000#16, 0xF800#16)] ++
  [(0x6800#16, 0xFF00#16), (0x6A00#16, 0xFF00#16), (0x5800#16, 0xF800#16), (0xC900#16, 0xFF00#16),
   (0xEB00#16, 0xFF00#16), (0xE900#16, 0xFF00#16), (0x7000#16, 0xFF00#16), (0x7100#16, 0xFF00#16),
   (0x7200#16, 0xFF00#16), (0x7300#16, 0xFF00#16)] ++
  [(0x7400#16, 0xFF00#16), (0x7500#16, 0xFF00#16), (0x7800#16, 0xFF00#16), (0x7900#16, 0xFF00#16),
   (0x7C00#16, 0xFF00#16), (0x7E00#16, 0xFF00#16), (0xE800#16, 0xFF00#16), (0xC300#16, 0xFF00#16),
   (0xEC00#16, 0xFF00#16), (0xEE00#16, 0xFF00#16)]

/-- Two bytes match a row (R102). -/
def rowMatches (row : BitVec 16 × BitVec 16) (b0 b1 : Byte) : Bool :=
  (b0 ++ b1 : BitVec 16) &&& row.2 == row.1

/-! ## Table words

The table numbers a row's bits over `(byte0 << 8) | byte1` (R102): the opcode byte is the HIGH byte
of its 16-bit word (notes/assumptions/19.md). -/

/-- The bytes of a table word as they lie in memory, the first byte from the word's top, and zeros
after them up to the longest instruction and beyond. -/
def tableBytes (nbits w : Nat) : List Byte :=
  let n := (nbits + 7) / 8
  (List.range n).map (fun k => BitVec.ofNat 8 (w >>> (8 * (n - 1 - k)))) ++ List.replicate 10 0#8

/-- The instruction that the decoder reads from a table word. -/
def decodeTableWord (nbits w : Nat) : Option Instr :=
  match decode (tableBytes nbits w) with
  | .ok (i, _) => some i
  | .error _ => none

end Sys2Proof
end

