-- ==== Sys2Proof/Config.lean ====
section
/-! DEFINITION. The parameters of 00_scope.md rule R8 that one machine fixes. `MEM_SIZE`, `INIT_EIP`
and `INIT_ESP` are inputs of construction (R220): `Machine.State.construct` takes them as arguments,
and the three values here are only those that `State.reset` is built with. `PUSH_IMM8_EXT` has no
source at all and is a free value: an opaque constant, so that every claim holds for both settings. -/

namespace Sys2Proof

/-- The two settings of the parameter `PUSH_IMM8_EXT` (R8, R144). -/
inductive PushImm8Ext where
  | sign
  | zero
  deriving DecidableEq, Repr, Inhabited

/-- `MEM_SIZE` of the reset state: 1 MiB. PRESUMED (GK3, "the original program's usual values"),
notes/assumptions/1.md, unsafe for a claim that starts at `State.reset`. -/
def Config.memSize : Nat := 0x100000

/-- `INIT_EIP` of the reset state. PRESUMED (GK3), notes/assumptions/2.md, unsafe for a claim that
starts at `State.reset`. -/
def Config.initEip : Word := 0x7C00#32

/-- `INIT_ESP` of the reset state. PRESUMED (GK3), notes/assumptions/3.md, unsafe for a claim that
starts at `State.reset`. -/
def Config.initEsp : Word := 0x7C00#32

/-- `PUSH_IMM8_EXT` (R8, R86, R144, decision D5): OPEN, no source settles it. A free value with no
body, notes/assumptions/6.md, safe: a claim holds whichever setting the hardware has. -/
opaque Config.pushImm8Ext : PushImm8Ext

end Sys2Proof
end

