-- ==== Sys2Proof/Machine/State.lean ====
section
/-! DEFINITION. The state of the machine as plain data (10_state.md), the ways a step can stop, and
the state after reset. Everything that reads or changes a field stands in Machine/Ops.lean. -/

namespace Sys2Proof.Machine

/-- The eight general registers (R20). -/
structure Regs where
  eax : Word
  ecx : Word
  edx : Word
  ebx : Word
  esp : Word
  ebp : Word
  esi : Word
  edi : Word
  deriving DecidableEq, Repr

/-- The flat byte memory (R31, R50): a buffer whose length is fixed at construction. `cells` lists the
bytes that are not zero, addresses strictly rising (`Memory.wf`). Every other byte of the buffer reads
0 (R221). -/
structure Memory where
  /-- `MEM_SIZE` in bytes (R8). -/
  size : Nat
  cells : List Host.Cell
  deriving DecidableEq, Repr

/-- The run state of the execution loop (R33). `Fatal(kind, info)` is the outcome `fault` of a step and
has no state: R190 leaves every register, flag and byte unspecified in it (notes/assumptions/10.md). -/
inductive RunState where
  /-- The loop goes on. -/
  | running
  /-- EIP was 0 after an instruction (R94, R197). -/
  | halted
  /-- EIP was not below `MEM_SIZE` at the loop test (R95, R198). -/
  | exited
  deriving DecidableEq, Repr

/-- The fatal conditions an instruction or its fetch can raise (R190 to R196). Each records the EIP
`eip` of the instruction that failed, `s` in the spec. -/
inductive Fault where
  /-- `DecodeError(SIB)`: raised by the eight ModR/M instructions when they compute the effective
  address of an operand with `rm = 100b` and `mod` not 11b (R79, R192). It records the ModR/M byte.
  The fault is the spec's own, safe. -/
  | decodeErrorSib (eip : Word) (modrm : Byte)
  /-- `DecodeError(BadRegister)`: raised by the register lookup by number for a number above 7 (R21,
  R193). No instruction reaches it, since register fields have 3 bits. The spec's own, safe. -/
  | decodeErrorBadRegister (eip : Word) (number : Nat)
  /-- `UnimplementedOpcode(op, s)`: raised by the loop for an opcode byte with no handler (R92, R194).
  The spec's own; unsafe only if the original registers more opcodes than decision D2 lists. -/
  | unimplementedOpcode (op : Byte) (eip : Word)
  /-- `UnimplementedExtension(op, reg, s)`: raised by the loop for a group opcode whose `reg` field
  selects no sub-operation (R91, R195). The spec's own kind (decision D3), safe. -/
  | unimplementedExtension (op : Byte) (ext : BitVec 3) (eip : Word)
  /-- `BoundsError(a, n)`: raised by the loop for a code fetch, and by any instruction with a memory
  operand or a stack slot, for `n` bytes at `a` that do not lie in memory (R52, R196). The spec's own,
  safe. -/
  | boundsError (eip : Word) (addr width : Nat)
  deriving DecidableEq, Repr

/-- The ways a step can have no meaning. -/
inductive Refusal where
  /-- An instruction with no meaning yet: raised by the dispatch only. Safe. -/
  | notModelled (mnemonic : String)
  /-- `Blocked` (R13, R207): raised by IN on port 0x03F8 while the host input stream has no next byte.
  The core has no step and changes nothing; it is not final, and the same state with one more input
  byte goes on. Safe (notes/assumptions/8.md). -/
  | blockedOnInput
  deriving DecidableEq, Repr

/-- Why construction or loading fails before the loop starts (R191, R220, R224). -/
inductive ConfigError where
  /-- `MEM_SIZE = 0` (R191, R220). -/
  | zeroSizedMemory
  /-- `MEM_SIZE >= 2^32`, which the spec refuses (R220, decision D14, U6). Safe. -/
  | memoryTooLarge
  /-- The image's range exceeds memory (R223, R224). -/
  | imageDoesNotFit
  deriving DecidableEq, Repr

structure State where
  /-- EAX to EDI (R20). -/
  regs : Regs
  /-- The instruction pointer (R24). -/
  eip : Word
  /-- The status flags: CF bit 0, ZF bit 6, SF bit 7, OF bit 11, the rest reserved (R27, R28). -/
  eflags : Word
  /-- The one memory, of code, data and stack (R31, R50). -/
  mem : Memory
  /-- The run state (R33). -/
  run : RunState
  /-- The host input stream `INPUT` of port 0x03F8, from its first byte (R8, R36, R205). -/
  input : List Byte
  /-- How many bytes of `input` the core has consumed (R36). -/
  consumed : Nat
  /-- The host output sequence of port 0x03F8, oldest byte first (R36, R206). -/
  output : List Byte
  deriving DecidableEq, Repr

/-- The state after construction (R37, R222) with the usual parameters of Config.lean and no image
loaded (notes/assumptions/4.md): every register but ESP and EIP is 0 and every bit of EFLAGS is 0 (the
spec's decision D4), every byte of memory reads 0 (R221), nothing is supplied, consumed or written. -/
def State.reset : State where
  regs := ⟨0#32, 0#32, 0#32, 0#32, Config.initEsp, 0#32, 0#32, 0#32⟩
  eip := Config.initEip
  eflags := 0#32
  mem := ⟨Config.memSize, []⟩
  run := .running
  input := []
  consumed := 0
  output := []

end Sys2Proof.Machine
end

