-- ==== Sys2Proof/Machine/Ops.lean ====
section
/-! DEFINITION. The named operations over the state: registers, memory, the stack, the two ports, the
fetch of an instruction's bytes, the two tests of the execution loop, and construction and loading.
An operation that can meet a fatal condition answers an `Except Fault`; `raise` is its `error`. -/

namespace Sys2Proof.Machine

/-! ## Registers -/

/-- The register `r` of the file (R20). -/
def Regs.get (g : Regs) : Reg → Word
  | .eax => g.eax
  | .ecx => g.ecx
  | .edx => g.edx
  | .ebx => g.ebx
  | .esp => g.esp
  | .ebp => g.ebp
  | .esi => g.esi
  | .edi => g.edi

/-- The file with `r` replaced by `v` and nothing else changed (R22). -/
def Regs.set (g : Regs) (r : Reg) (v : Word) : Regs :=
  match r with
  | .eax => { g with eax := v }
  | .ecx => { g with ecx := v }
  | .edx => { g with edx := v }
  | .ebx => { g with ebx := v }
  | .esp => { g with esp := v }
  | .ebp => { g with ebp := v }
  | .esi => { g with esi := v }
  | .edi => { g with edi := v }

/-- `read_register(r)`, `x[r]` (R22). -/
def State.reg (s : State) (r : Reg) : Word := s.regs.get r

/-- `write_register(r, v)`, `x[r] <- v` (R22). No register is hardwired (R20). -/
def State.setReg (s : State) (r : Reg) (v : Word) : State := { s with regs := s.regs.set r v }

/-- Register lookup by number (R21): total over 0 to 7, and any other number is
`DecodeError(BadRegister)`. -/
def State.registerByNumber (s : State) (n : Nat) : Except Fault Reg :=
  if n < 8 then .ok (Reg.ofField (BitVec.ofNat 3 n)) else .error (.decodeErrorBadRegister s.eip n)

/-! ## EIP, EFLAGS, run state -/

/-- `EIP <- v` (R12). -/
def State.setEip (s : State) (v : Word) : State := { s with eip := v }

/-- `advance_eip(d)` (R24): `d` is the signed delta in two's complement, the sum is modulo 2^32
(decision D8, notes/assumptions/11.md). -/
def State.advanceEip (s : State) (d : Word) : State := { s with eip := s.eip + d }

/-- `set_flags(v)` (R29): all 32 bits of EFLAGS. -/
def State.setEflags (s : State) (v : Word) : State := { s with eflags := v }

/-- The run state is replaced (R33). -/
def State.setRun (s : State) (r : RunState) : State := { s with run := r }

/-- The memory is replaced. -/
def State.setMem (s : State) (m : Memory) : State := { s with mem := m }

/-! ## Memory: cells -/

/-- What a byte that `cells` does not list reads as: zero-initialised memory (R221). -/
def unlistedByte : Byte := 0#8

/-- The value of the first cell at address `a`. -/
def cellsGet : List Host.Cell → Nat → Byte
  | [], _ => unlistedByte
  | c :: cs, a => if c.1 = a then c.2 else cellsGet cs a

/-- A cell put before the first cell with a larger address. -/
def cellsInsert (a : Nat) (v : Byte) : List Host.Cell → List Host.Cell
  | [] => [(a, v)]
  | c :: cs => if c.1 < a then c :: cellsInsert a v cs else (a, v) :: c :: cs

/-- The cells with address `a` holding `v`: an unlisted value leaves no cell. -/
def cellsPut (cs : List Host.Cell) (a : Nat) (v : Byte) : List Host.Cell :=
  let others := cs.filter (fun c => c.1 != a)
  if v = unlistedByte then others else cellsInsert a v others

/-- The canonical form of memory: addresses strictly rising, every cell inside the buffer, no cell
equal to what an unlisted address reads as. -/
abbrev Memory.wf (m : Memory) : Prop :=
  m.cells.Pairwise (fun c d => c.1 < d.1) ∧ ∀ c ∈ m.cells, c.1 < m.size ∧ c.2 ≠ unlistedByte

/-- `M[a]` (R54). -/
def Memory.byte (m : Memory) (a : Nat) : Byte := cellsGet m.cells a

/-- `M[a] <- v` (R54). -/
def Memory.setByte (m : Memory) (a : Nat) (v : Byte) : Memory := { m with cells := cellsPut m.cells a v }

/-- The four bytes at `a` to `a + 3`, little-endian (R54). -/
def Memory.word (m : Memory) (a : Nat) : Word :=
  word32 (m.byte a) (m.byte (a + 1)) (m.byte (a + 2)) (m.byte (a + 3))

/-- `M[a + k] <- bytes[k]` for every `k`, in order (R223). -/
def Memory.setBytes (m : Memory) (a : Nat) : List Byte → Memory
  | [] => m
  | b :: bs => (m.setByte a b).setBytes (a + 1) bs

/-- The four bytes of `v` at `a` to `a + 3`, little-endian (R54). -/
def Memory.setWord (m : Memory) (a : Nat) (v : Word) : Memory := m.setBytes a (bytes32 v)

/-- An access of `n` bytes at `a` lies in memory (R52): an unbounded sum. -/
def Memory.inBounds (m : Memory) (a n : Nat) : Bool := a + n ≤ m.size

/-! ## Memory: the primitives of rule R11 -/

/-- `MemRead(a, 1)` (R52, R54). -/
def memRead8 (s : State) (a : Word) : Except Fault Byte :=
  if s.mem.inBounds a.toNat 1 then .ok (s.mem.byte a.toNat)
  else .error (.boundsError s.eip a.toNat 1)

/-- `MemRead(a, 4)` (R52, R54); no alignment is asked for (R56). -/
def memRead32 (s : State) (a : Word) : Except Fault Word :=
  if s.mem.inBounds a.toNat 4 then .ok (s.mem.word a.toNat)
  else .error (.boundsError s.eip a.toNat 4)

/-- `MemWrite(a, 1, v)` (R52, R54). -/
def memWrite8 (s : State) (a : Word) (v : Byte) : Except Fault State :=
  if s.mem.inBounds a.toNat 1 then .ok (s.setMem (s.mem.setByte a.toNat v))
  else .error (.boundsError s.eip a.toNat 1)

/-- `MemWrite(a, 4, v)` (R52, R54). The check stands before the first byte is written. -/
def memWrite32 (s : State) (a : Word) (v : Word) : Except Fault State :=
  if s.mem.inBounds a.toNat 4 then .ok (s.setMem (s.mem.setWord a.toNat v))
  else .error (.boundsError s.eip a.toNat 4)

/-! ## The stack -/

/-- `Push32(v)` (R140): ESP is decremented first, modulo 2^32. -/
def push32 (v : Word) (s : State) : Except Fault State :=
  let s := s.setReg .esp (s.reg .esp - 4#32)
  memWrite32 s (s.reg .esp) v

/-- `Pop32()` (R141): the value read and the state with ESP incremented, modulo 2^32. -/
def pop32 (s : State) : Except Fault (Word × State) := do
  let v ← memRead32 s (s.reg .esp)
  .ok (v, s.setReg .esp (s.reg .esp + 4#32))

/-! ## The ports -/

/-- The one live port (R32, R205, R206). -/
def livePort : BitVec 16 := 0x03F8#16

/-- `PortIn(port)` (R205): the byte and the state after the read. `none` is `Blocked`: the live port
has no next byte (R207). -/
def portIn (port : BitVec 16) (s : State) : Option (Byte × State) :=
  if port = livePort then
    match s.input[s.consumed]? with
    | some b => some (b, { s with consumed := s.consumed + 1 })
    | none => none
  else some (0#8, s)

/-- `PortOut(port, b)` (R206). -/
def portOut (port : BitVec 16) (b : Byte) (s : State) : State :=
  if port = livePort then { s with output := s.output ++ [b] } else s

/-! ## Ending an instruction -/

/-- `raise` (R12, R190) ends the run in `Fatal`, which is the outcome `fault`; anything else is the next
state. -/
def outcomeOf : Except Fault State → Host.Outcome State Fault Refusal
  | .ok s => .next s
  | .error f => .fault f

/-! ## The execution loop (R93) -/

/-- The loop test: EIP lies within memory (R93, R95). -/
def eipInMemory (s : State) : Bool := s.eip.toNat < s.mem.size

/-- Up to `n` bytes of memory from `a` on, ending at the end of memory. -/
def Memory.window (m : Memory) (a : Nat) : Nat → List Byte
  | 0 => []
  | n + 1 => if a < m.size then m.byte a :: m.window (a + 1) n else []

/-- The bytes that the instruction at EIP can be read from (R62, R84): the current contents of memory
at EIP and after it, at most the longest instruction, addresses in the unbounded sum (R55). -/
def fetchWindow (s : State) : List Byte := s.mem.window s.eip.toNat maxLength

/-- The fatal condition that a rejected decoding raises (R91, R92, R52): a read past the end of the
window is a code fetch past the end of memory. -/
def decodeFault (s : State) : DecodeError → Fault
  | .unimplementedOpcode op => .unimplementedOpcode op s.eip
  | .unimplementedExtension op ext => .unimplementedExtension op ext s.eip
  | .truncated offset width => .boundsError s.eip (s.eip.toNat + offset) width

/-- The halt sentinel (R94): after an instruction completes, EIP = 0 halts the run. -/
def haltTest : Host.Outcome State Fault Refusal → Host.Outcome State Fault Refusal
  | .next s => .next (if s.eip = 0#32 then s.setRun .halted else s)
  | .fault f => .fault f
  | .refused r => .refused r

/-! ## Construction, loading and the host (R212) -/

/-- Construction (R220 to R222), the only reset. -/
def State.construct (memSize : Nat) (initEip initEsp : Word) : Except ConfigError State :=
  if memSize = 0 then .error .zeroSizedMemory
  else if 2 ^ 32 ≤ memSize then .error .memoryTooLarge
  else .ok
    { regs := ⟨0#32, 0#32, 0#32, 0#32, initEsp, 0#32, 0#32, 0#32⟩
      eip := initEip
      eflags := 0#32
      mem := ⟨memSize, []⟩
      run := .running
      input := []
      consumed := 0
      output := [] }

/-- `load_image(IMAGE, LOAD_ADDR)` (R223, R224). -/
def State.loadImage (s : State) (image : List Byte) (addr : Word) : Except ConfigError State :=
  if s.mem.inBounds addr.toNat image.length then .ok (s.setMem (s.mem.setBytes addr.toNat image))
  else .error .imageDoesNotFit

/-- The host supplies bytes on its input stream (R205, R207, R212), before or during a run. -/
def State.supplyInput (s : State) (bytes : List Byte) : State := { s with input := s.input ++ bytes }

/-- The diagnostic dump (R38): the register file, EIP and EFLAGS; memory is left out by design. -/
def State.dump (s : State) : Regs × Word × Word := (s.regs, s.eip, s.eflags)

/-- The bytes of a code word stored from `a` on, those that lie past the end of memory left out. -/
def Memory.placeCode (m : Memory) (a : Nat) : List Byte → Memory
  | [] => m
  | b :: bs => if a < m.size then (m.setByte a b).placeCode (a + 1) bs else m

end Sys2Proof.Machine
end

