-- ==== Sys2Proof/Machine/Flags.lean ====
section
/-! DEFINITION. The flags of EFLAGS (10_state.md section 3), the subtraction-flag routine, which is
their only writer, and the ten condition predicates, which are their only readers (41_arithmetic.md). -/

namespace Sys2Proof.Machine

/-- `is_carry` (R29). -/
def isCarry (f : Word) : Bool := f.getLsbD 0

/-- `is_zero` (R29). -/
def isZero (f : Word) : Bool := f.getLsbD 6

/-- `is_sign` (R29). -/
def isSign (f : Word) : Bool := f.getLsbD 7

/-- `is_overflow` (R29). -/
def isOverflow (f : Word) : Bool := f.getLsbD 11

/-- `f` with bit `i` made `b`. -/
def putBit (f : Word) (i : Nat) (b : Bool) : Word :=
  if b then f ||| (1#32 <<< i) else f &&& ~~~(1#32 <<< i)

/-- The wide difference of the zero-extended operands, modulo 2^33 (R120, conflict C3). -/
def wideDifference (op1 op2 : Word) : BitVec 33 := op1.setWidth 33 - op2.setWidth 33

/-- `SubFlags(op1, op2)` over EFLAGS `f` (R120). The other 28 bits are kept (decision D18,
notes/assumptions/16.md). -/
def subFlags (op1 op2 f : Word) : Word :=
  let wide := wideDifference op1 op2
  let res : Word := wide.extractLsb' 0 32
  let cf := wide.getLsbD 32
  let zf := res == 0#32
  let sf := res.getLsbD 31
  let of := op1.getLsbD 31 != op2.getLsbD 31 && res.getLsbD 31 != op1.getLsbD 31
  putBit (putBit (putBit (putBit f 0 cf) 6 zf) 7 sf) 11 of

/-- The state after `SubFlags(op1, op2)`. -/
def State.updateSubFlags (s : State) (op1 op2 : Word) : State :=
  s.setEflags (subFlags op1 op2 s.eflags)

/-- The conditions of rule R127. -/
inductive Cond where
  | o | no | c | nc | z | nz | s | ns | l | le
  deriving DecidableEq, Repr

/-- The predicate of EFLAGS that a condition names (R127). -/
def condHolds (cc : Cond) (f : Word) : Bool :=
  match cc with
  | .o => isOverflow f
  | .no => !isOverflow f
  | .c => isCarry f
  | .nc => !isCarry f
  | .z => isZero f
  | .nz => !isZero f
  | .s => isSign f
  | .ns => !isSign f
  | .l => isSign f != isOverflow f
  | .le => isZero f || isSign f != isOverflow f

end Sys2Proof.Machine
end

