-- ==== Sys2Proof/Machine/Operands.lean ====
section
/-! DEFINITION. The operand forms (30_encoding.md sections 2 and 3) and the widening of immediates and
displacements. `x` is the ModR/M byte's `reg` field, which `DecodeError(SIB)` records with the rest of
the byte (R192). -/

namespace Sys2Proof.Machine

/-! ## Widening -/

/-- `sext_32(v)` (R10, R75, R86, R87). -/
def sext32 (b : Byte) : Word := b.signExtend 32

/-- `zext_32(v)` (R10). -/
def zext32 (b : Byte) : Word := b.setWidth 32

/-- The imm8 of `6A` under a setting of `PUSH_IMM8_EXT` (R144). Below 0x80 both settings agree. -/
def widenImm8 (ext : PushImm8Ext) (b : Byte) : Word :=
  if b.msb && ext == .sign then sext32 b else zext32 b

/-- The imm8 of `6A` under the machine's own setting, a free value (R86, R144, decision D5). -/
def pushImm8Value (b : Byte) : Word := widenImm8 Config.pushImm8Ext b

/-- `lo8(v)` (R10). -/
def lo8 (v : Word) : Byte := v.extractLsb' 0 8

/-- `lo16(v)` (R10). -/
def lo16 (v : Word) : BitVec 16 := v.extractLsb' 0 16

/-- `v[31:8] || b` (R23, R181). -/
def withLo8 (v : Word) (b : Byte) : Word := v.extractLsb' 8 24 ++ b

/-! ## The effective address -/

/-- The effective address (R76 to R78), sums modulo 2^32 (decision D8). `none` is an operand with a SIB
byte (R79). -/
def operandAddress (m : MemOp) (s : State) : Option Word :=
  match m with
  | .base b => some (s.reg b)
  | .abs d => some d
  | .baseDisp8 b d => some (s.reg b + sext32 d)
  | .baseDisp32 b d => some (s.reg b + d)
  | .sib _ => none
  | .sibDisp8 _ _ => none
  | .sibDisp32 _ _ => none

/-- `EA(d)` (R79): a SIB-form operand raises `DecodeError(SIB)`. -/
def effectiveAddress (x : BitVec 3) (m : MemOp) (s : State) : Except Fault Word :=
  match operandAddress m s with
  | some a => .ok a
  | none => .error (.decodeErrorSib s.eip ((RM.mem m).modrm x))

/-! ## Access -/

/-- `ReadRM(d)` (R82). -/
def readRM (x : BitVec 3) (rm : RM) (s : State) : Except Fault Word :=
  match rm with
  | .reg r => .ok (s.reg r)
  | .mem m => do
    let a ← effectiveAddress x m s
    memRead32 s a

/-- `WriteRM(d, v)` (R82, R83): the address is computed from the registers current at the write. -/
def writeRM (x : BitVec 3) (rm : RM) (v : Word) (s : State) : Except Fault State :=
  match rm with
  | .reg r => .ok (s.setReg r v)
  | .mem m => do
    let a ← effectiveAddress x m s
    memWrite32 s a v

end Sys2Proof.Machine
end

