-- ==== Sys2Proof/Machine/Arithmetic.lean ====
section
/-! DEFINITION. The arithmetic instructions (41_arithmetic.md). Sums and differences are modulo 2^32
(R121). ADD and INC write no flag (decision D26). -/

namespace Sys2Proof.Machine

/-- ADD r/m32, r32 (R122). -/
def execAddRmR (rm : RM) (r : Reg) (s : State) : Host.Outcome State Fault Refusal :=
  outcomeOf do
    let b := s.reg r
    let a ← readRM r.field rm s
    let s ← writeRM r.field rm (a + b) s
    .ok (s.advanceEip (BitVec.ofNat 32 (2 + rm.extra)))

/-- ADD r/m32, imm8 (R123). -/
def execAddRmImm8 (rm : RM) (imm : Byte) (s : State) : Host.Outcome State Fault Refusal :=
  outcomeOf do
    let i := sext32 imm
    let a ← readRM 0#3 rm s
    let s ← writeRM 0#3 rm (a + i) s
    .ok (s.advanceEip (BitVec.ofNat 32 (3 + rm.extra)))

/-- SUB r/m32, imm8 (R124). -/
def execSubRmImm8 (rm : RM) (imm : Byte) (s : State) : Host.Outcome State Fault Refusal :=
  outcomeOf do
    let i := sext32 imm
    let a ← readRM 5#3 rm s
    let s ← writeRM 5#3 rm (a - i) s
    .ok ((s.updateSubFlags a i).advanceEip (BitVec.ofNat 32 (3 + rm.extra)))

/-- CMP r/m32, imm8 (R125). -/
def execCmpRmImm8 (rm : RM) (imm : Byte) (s : State) : Host.Outcome State Fault Refusal :=
  outcomeOf do
    let i := sext32 imm
    let a ← readRM 7#3 rm s
    .ok ((s.updateSubFlags a i).advanceEip (BitVec.ofNat 32 (3 + rm.extra)))

/-- INC r/m32 (R126). -/
def execIncRm (rm : RM) (s : State) : Host.Outcome State Fault Refusal :=
  outcomeOf do
    let a ← readRM 0#3 rm s
    let s ← writeRM 0#3 rm (a + 1#32) s
    .ok (s.advanceEip (BitVec.ofNat 32 (2 + rm.extra)))

end Sys2Proof.Machine
end

