-- ==== Sys2Proof/Machine/Control.lean ====
section
/-! DEFINITION. The control transfer instructions (43_control_transfer.md). Every relative target is
`s + len + rel` modulo 2^32 (R87). -/

namespace Sys2Proof.Machine

/-- A relative transfer of an instruction of `len` bytes (R87). -/
def State.jumpRelative (s : State) (len rel : Word) : State := (s.advanceEip len).advanceEip rel

/-- JMP rel8 (R160). -/
def execJmpRel8 (rel : Byte) (s : State) : Host.Outcome State Fault Refusal :=
  .next (s.jumpRelative 2#32 (sext32 rel))

/-- JMP rel32 (R161). -/
def execJmpRel32 (rel : Word) (s : State) : Host.Outcome State Fault Refusal :=
  .next (s.jumpRelative 5#32 rel)

/-- The common rule of the ten conditional jumps (R162). -/
def jccRel8 (cc : Cond) (rel : Byte) (s : State) : Host.Outcome State Fault Refusal :=
  if condHolds cc s.eflags then .next (s.jumpRelative 2#32 (sext32 rel)) else .next (s.advanceEip 2#32)

/-- JO rel8 (R163). -/
def execJo (rel : Byte) (s : State) : Host.Outcome State Fault Refusal := jccRel8 .o rel s

/-- JNO rel8 (R164). -/
def execJno (rel : Byte) (s : State) : Host.Outcome State Fault Refusal := jccRel8 .no rel s

/-- JC rel8 (R165). -/
def execJc (rel : Byte) (s : State) : Host.Outcome State Fault Refusal := jccRel8 .c rel s

/-- JNC rel8 (R166). -/
def execJnc (rel : Byte) (s : State) : Host.Outcome State Fault Refusal := jccRel8 .nc rel s

/-- JZ rel8 (R167). -/
def execJz (rel : Byte) (s : State) : Host.Outcome State Fault Refusal := jccRel8 .z rel s

/-- JNZ rel8 (R168). -/
def execJnz (rel : Byte) (s : State) : Host.Outcome State Fault Refusal := jccRel8 .nz rel s

/-- JS rel8 (R169). -/
def execJs (rel : Byte) (s : State) : Host.Outcome State Fault Refusal := jccRel8 .s rel s

/-- JNS rel8 (R170). -/
def execJns (rel : Byte) (s : State) : Host.Outcome State Fault Refusal := jccRel8 .ns rel s

/-- JL rel8 (R171). -/
def execJl (rel : Byte) (s : State) : Host.Outcome State Fault Refusal := jccRel8 .l rel s

/-- JLE rel8 (R172). -/
def execJle (rel : Byte) (s : State) : Host.Outcome State Fault Refusal := jccRel8 .le rel s

/-- CALL rel32 (R173): the return address is pushed first. -/
def execCallRel32 (rel : Word) (s : State) : Host.Outcome State Fault Refusal :=
  outcomeOf do
    let s ← push32 (s.eip + 5#32) s
    .ok (s.jumpRelative 5#32 rel)

/-- RET (R174). -/
def execRet (s : State) : Host.Outcome State Fault Refusal :=
  outcomeOf do
    let (v, s) ← pop32 s
    .ok (s.setEip v)

end Sys2Proof.Machine
end

