-- ==== Sys2Proof/Machine/DataMovement.lean ====
section
/-! DEFINITION. The data movement instructions (40_data_movement.md). None touches a flag. A meaning
starts with EIP at the opcode byte, `s`, and advances it last (R96); the code fetches have been made
by the loop. -/

namespace Sys2Proof.Machine

/-- MOV r32, imm32 (R110). -/
def execMovRImm32 (r : Reg) (imm : Word) (s : State) : Host.Outcome State Fault Refusal :=
  .next ((s.setReg r imm).advanceEip 5#32)

/-- MOV r/m32, r32 (R111). -/
def execMovRmR (rm : RM) (r : Reg) (s : State) : Host.Outcome State Fault Refusal :=
  outcomeOf do
    let v := s.reg r
    let s ← writeRM r.field rm v s
    .ok (s.advanceEip (BitVec.ofNat 32 (2 + rm.extra)))

/-- MOV r32, r/m32 (R112). -/
def execMovRRm (r : Reg) (rm : RM) (s : State) : Host.Outcome State Fault Refusal :=
  outcomeOf do
    let v ← readRM r.field rm s
    .ok ((s.setReg r v).advanceEip (BitVec.ofNat 32 (2 + rm.extra)))

/-- MOV r/m32, imm32 (R113). -/
def execMovRmImm32 (rm : RM) (imm : Word) (s : State) : Host.Outcome State Fault Refusal :=
  outcomeOf do
    let s ← writeRM 0#3 rm imm s
    .ok (s.advanceEip (BitVec.ofNat 32 (6 + rm.extra)))

end Sys2Proof.Machine
end

