-- ==== Sys2Proof/Machine/PortIO.lean ====
section
/-! DEFINITION. The port instructions (44_port_io.md). The port is DX and the data is AL (R180). -/

namespace Sys2Proof.Machine

/-- IN AL, DX (R181): only AL changes. Without an input byte on the live port there is no step (R207). -/
def execInAlDx (s : State) : Host.Outcome State Fault Refusal :=
  match portIn (lo16 (s.reg .edx)) s with
  | none => .refused .blockedOnInput
  | some (b, s') => .next ((s'.setReg .eax (withLo8 (s'.reg .eax) b)).advanceEip 1#32)

/-- OUT DX, AL (R182). -/
def execOutDxAl (s : State) : Host.Outcome State Fault Refusal :=
  .next ((portOut (lo16 (s.reg .edx)) (lo8 (s.reg .eax)) s).advanceEip 1#32)

end Sys2Proof.Machine
end

