-- ==== Sys2Proof/Machine/Stack.lean ====
section
/-! DEFINITION. The stack instructions (42_stack.md). None touches a flag. -/

namespace Sys2Proof.Machine

/-- PUSH r32 (R142): the register is read before ESP is decremented (decision D6). -/
def execPushR (r : Reg) (s : State) : Host.Outcome State Fault Refusal :=
  outcomeOf do
    let v := s.reg r
    let s ← push32 v s
    .ok (s.advanceEip 1#32)

/-- PUSH imm32 (R143). -/
def execPushImm32 (imm : Word) (s : State) : Host.Outcome State Fault Refusal :=
  outcomeOf do
    let s ← push32 imm s
    .ok (s.advanceEip 5#32)

/-- PUSH imm8 (R144). -/
def execPushImm8 (imm : Byte) (s : State) : Host.Outcome State Fault Refusal :=
  outcomeOf do
    let s ← push32 (pushImm8Value imm) s
    .ok (s.advanceEip 2#32)

/-- POP r32 (R145): the register is written after ESP is incremented (decision D7). -/
def execPopR (r : Reg) (s : State) : Host.Outcome State Fault Refusal :=
  outcomeOf do
    let (v, s) ← pop32 s
    .ok ((s.setReg r v).advanceEip 1#32)

/-- LEAVE (R146). -/
def execLeave (s : State) : Host.Outcome State Fault Refusal :=
  outcomeOf do
    let s := s.setReg .esp (s.reg .ebp)
    let (v, s) ← pop32 s
    .ok ((s.setReg .ebp v).advanceEip 1#32)

end Sys2Proof.Machine
end

