-- ==== Sys2Proof/Machine/Dispatch.lean ====
section
/-! DEFINITION. One arm per instruction (R88, R93): the handler of each row of spec/opcode_table.json. -/

namespace Sys2Proof.Machine

def exec (i : Instr) (s : State) : Host.Outcome State Fault Refusal :=
  match i with
  | .movRImm32 r imm => Sys2Proof.Machine.execMovRImm32 r imm s
  | .movRmR rm r => Sys2Proof.Machine.execMovRmR rm r s
  | .movRRm r rm => Sys2Proof.Machine.execMovRRm r rm s
  | .movRmImm32 rm imm => Sys2Proof.Machine.execMovRmImm32 rm imm s
  | .addRmR rm r => Sys2Proof.Machine.execAddRmR rm r s
  | .addRmImm8 rm imm => Sys2Proof.Machine.execAddRmImm8 rm imm s
  | .subRmImm8 rm imm => Sys2Proof.Machine.execSubRmImm8 rm imm s
  | .cmpRmImm8 rm imm => Sys2Proof.Machine.execCmpRmImm8 rm imm s
  | .incRm rm => Sys2Proof.Machine.execIncRm rm s
  | .pushR r => Sys2Proof.Machine.execPushR r s
  | .pushImm32 imm => Sys2Proof.Machine.execPushImm32 imm s
  | .pushImm8 imm => Sys2Proof.Machine.execPushImm8 imm s
  | .popR r => Sys2Proof.Machine.execPopR r s
  | .leave => Sys2Proof.Machine.execLeave s
  | .jmpRel8 rel => Sys2Proof.Machine.execJmpRel8 rel s
  | .jmpRel32 rel => Sys2Proof.Machine.execJmpRel32 rel s
  | .jo rel => Sys2Proof.Machine.execJo rel s
  | .jno rel => Sys2Proof.Machine.execJno rel s
  | .jc rel => Sys2Proof.Machine.execJc rel s
  | .jnc rel => Sys2Proof.Machine.execJnc rel s
  | .jz rel => Sys2Proof.Machine.execJz rel s
  | .jnz rel => Sys2Proof.Machine.execJnz rel s
  | .js rel => Sys2Proof.Machine.execJs rel s
  | .jns rel => Sys2Proof.Machine.execJns rel s
  | .jl rel => Sys2Proof.Machine.execJl rel s
  | .jle rel => Sys2Proof.Machine.execJle rel s
  | .callRel32 rel => Sys2Proof.Machine.execCallRel32 rel s
  | .ret => Sys2Proof.Machine.execRet s
  | .inAlDx => Sys2Proof.Machine.execInAlDx s
  | .outDxAl => Sys2Proof.Machine.execOutDxAl s

end Sys2Proof.Machine
end

