-- ==== Sys2Proof/Machine/Step.lean ====
section
/-! DEFINITION. The execution loop (30_encoding.md rule R93) and the placing of a program's first
instruction. -/

namespace Sys2Proof.Machine

/-- One step (R13, R93). A terminal run state is never left (R33): the step changes nothing there
(notes/assumptions/9.md). -/
def step (s : State) : Host.Outcome State Fault Refusal :=
  match s.run with
  | .running =>
    if eipInMemory s then
      match decode (fetchWindow s) with
      | .ok (i, _) => haltTest (exec i s)
      | .error e => .fault (decodeFault s e)
    else .next (s.setRun .exited)
  | .halted => .next s
  | .exited => .next s

/-- `s` with a table word's bytes stored at EIP, where `step` fetches, and the loop running. It stands
for the loading of a program (R223, R225, notes/assumptions/4.md). -/
def State.withFetchWord (s : State) (nbits w : Nat) : State :=
  (s.setMem (s.mem.placeCode s.eip.toNat (tableBytes nbits w))).setRun .running

end Sys2Proof.Machine
end

