-- ==== Sys2Proof/Safety.lean ====
section
/-! DEFINITION. The outcomes of a step in the spec's own words, what a run reaches, and the invariant
that says which states are states of this hardware. -/

namespace Sys2Proof.Machine

/-- The outcomes of a step of a running core (R13). -/
inductive StepOutcome where
  /-- A next state, still `Running`. -/
  | running (s : State)
  | halted (s : State)
  | exited (s : State)
  /-- `Fatal(kind, info)`, which has no state to speak of (R190). -/
  | fatal (f : Fault)
  /-- No step is possible while the host has no input byte (R207). Not final. -/
  | blocked
  deriving DecidableEq, Repr

/-- The outcome of the step from `s`. -/
def stepOutcome (s : State) : StepOutcome :=
  match step s with
  | .next t =>
    match t.run with
    | .running => .running t
    | .halted => .halted t
    | .exited => .exited t
  | .fault f => .fatal f
  | .refused _ => .blocked

/-- `t` is reached from `s` in some number of steps. -/
inductive Reaches (s : State) : State → Prop where
  | refl : Reaches s s
  | step {t u : State} : Reaches s t → Sys2Proof.Machine.step t = .next u → Reaches s u

/-- A run from `s` is safe: it never ends in `Fatal` (R190). Blocking is no failure (R207). -/
def NeverFatal (s : State) : Prop := ∀ t, Reaches s t → ∀ f, step t ≠ .fault f

/-- The reserved bits of EFLAGS (R28): all but 0, 6, 7 and 11. -/
def reservedFlags : Word := ~~~0x8C1#32

/-- The states of this hardware: memory in canonical form and of a size that the spec admits (R8,
R220), reserved flags at 0 (R28), no more input consumed than the host supplied (R36), EIP at 0 in
`Halted` (R197) and at or above `MEM_SIZE` in `Exited` (R198). -/
structure State.Inv (s : State) : Prop where
  memory : s.mem.wf
  sizePositive : 0 < s.mem.size
  sizeBound : s.mem.size < 2 ^ 32
  reserved : s.eflags &&& reservedFlags = 0#32
  input : s.consumed ≤ s.input.length
  halted : s.run = .halted → s.eip = 0#32
  exited : s.run = .exited → s.mem.size ≤ s.eip.toNat

end Sys2Proof.Machine
end

