-- ==== Sys2Proof/Certificates/Slice0/Obligations.lean ====
section
/-! DEFINITION. The statements about this machine, each `def Obligations.<Name> : Prop`. The vocabulary
they share stands first. It reads registers through `State.reg`, memory one byte at a time through
`Memory.byte`, and the address of a memory operand through `operandAddress`, the function that the
meanings themselves use. -/

namespace Sys2Proof.Claims

open Sys2Proof.Machine

/-- Every register but those listed is unchanged. -/
def RegsKept (but : List Reg) (s t : State) : Prop := ∀ r, r ∉ but → t.reg r = s.reg r

/-- Every byte of memory is unchanged, and so is the memory's size. -/
def BytesKept (s t : State) : Prop :=
  t.mem.size = s.mem.size ∧ ∀ b, t.mem.byte b = s.mem.byte b

/-- Every byte of memory outside the `n` bytes at `a` is unchanged, and so is the memory's size. -/
def BytesKeptOutside (a n : Nat) (s t : State) : Prop :=
  t.mem.size = s.mem.size ∧ ∀ b, b < a ∨ a + n ≤ b → t.mem.byte b = s.mem.byte b

/-- The run state and the three host-side fields are unchanged. -/
def HostKept (s t : State) : Prop :=
  t.run = s.run ∧ t.input = s.input ∧ t.consumed = s.consumed ∧ t.output = s.output

/-- The four bytes of `v` lie at `a`, the least significant one lowest. -/
def StoredAt (m : Memory) (a : Nat) (v : Word) : Prop :=
  m.byte a = v.extractLsb' 0 8 ∧ m.byte (a + 1) = v.extractLsb' 8 8 ∧
    m.byte (a + 2) = v.extractLsb' 16 8 ∧ m.byte (a + 3) = v.extractLsb' 24 8

/-- The rm operand can be accessed: a register, or an address without a SIB byte whose four bytes lie
in memory. -/
def Accessible (rm : RM) (s : State) : Prop :=
  match rm with
  | .reg _ => True
  | .mem m => ∃ a, operandAddress m s = some a ∧ a.toNat + 4 ≤ s.mem.size

/-- The rm operand holds `v`. -/
def OperandHolds (rm : RM) (s : State) (v : Word) : Prop :=
  match rm with
  | .reg r => s.reg r = v
  | .mem m => ∀ a, operandAddress m s = some a → StoredAt s.mem a.toNat v

/-- From `s` to `t`, `v` was written to the operand that `rm` names in `s`, and no other register and no
other byte of memory changed. -/
def OperandWritten (rm : RM) (v : Word) (s t : State) : Prop :=
  match rm with
  | .reg d => t.reg d = v ∧ RegsKept [d] s t ∧ BytesKept s t
  | .mem m => RegsKept [] s t ∧
      ∀ a, operandAddress m s = some a → StoredAt t.mem a.toNat v ∧ BytesKeptOutside a.toNat 4 s t

/-- The four flags are those of the subtraction `op1 - op2`, said over the integers, and every other
bit of EFLAGS is as in `f`. -/
def SubtractionFlags (op1 op2 f f' : Word) : Prop :=
  (f'.getLsbD 0 = true ↔ op1.toNat < op2.toNat) ∧
  (f'.getLsbD 6 = true ↔ op1 = op2) ∧
  (f'.getLsbD 7 = true ↔ (op1 - op2).toInt < 0) ∧
  (f'.getLsbD 11 = true ↔ op1.toInt - op2.toInt < -2 ^ 31 ∨ 2 ^ 31 ≤ op1.toInt - op2.toInt) ∧
  ∀ k, k ≠ 0 → k ≠ 6 → k ≠ 7 → k ≠ 11 → f'.getLsbD k = f.getLsbD k

/-- `v` was pushed: it lies at the decremented ESP, and only ESP and those four bytes changed. -/
def Pushed (v : Word) (s t : State) : Prop :=
  t.reg .esp = s.reg .esp - 4#32 ∧ RegsKept [.esp] s t ∧
    StoredAt t.mem (s.reg .esp - 4#32).toNat v ∧ BytesKeptOutside (s.reg .esp - 4#32).toNat 4 s t

/-- The slot below ESP lies in memory. -/
def PushFits (s : State) : Prop := (s.reg .esp - 4#32).toNat + 4 ≤ s.mem.size

/-- The bytes of an instruction lie in memory at EIP. -/
def BytesAtEip (s : State) (bs : List Byte) : Prop :=
  s.eip.toNat + bs.length ≤ s.mem.size ∧ ∀ k b, bs[k]? = some b → s.mem.byte (s.eip.toNat + k) = b

/-- The 49 opcode bytes of 30_encoding.md rule R88. -/
def registeredOpcodes : List Byte :=
  [0x01#8, 0x50#8, 0x51#8, 0x52#8, 0x53#8, 0x54#8, 0x55#8, 0x56#8, 0x57#8, 0x58#8, 0x59#8, 0x5A#8,
   0x5B#8, 0x5C#8, 0x5D#8, 0x5E#8, 0x5F#8] ++
  [0x68#8, 0x6A#8, 0x70#8, 0x71#8, 0x72#8, 0x73#8, 0x74#8, 0x75#8, 0x78#8, 0x79#8, 0x7C#8, 0x7E#8,
   0x83#8, 0x89#8, 0x8B#8] ++
  [0xB8#8, 0xB9#8, 0xBA#8, 0xBB#8, 0xBC#8, 0xBD#8, 0xBE#8, 0xBF#8, 0xC3#8, 0xC7#8, 0xC9#8, 0xE8#8,
   0xE9#8, 0xEB#8, 0xEC#8, 0xEE#8, 0xFF#8]

/-- The `reg` fields that select a sub-operation of a group opcode (R89). -/
def registeredExtensions (op : Byte) : List (BitVec 3) :=
  if op = 0x83#8 then [0#3, 5#3, 7#3] else [0#3]

/-- `m` of the table of rule R84, by the fields `mod` and `rm`. -/
def extraBytes (mod : BitVec 2) (rm : BitVec 3) : Nat :=
  if mod = 3#2 then 0
  else if mod = 2#2 then (if rm = 4#3 then 5 else 4)
  else if mod = 1#2 then (if rm = 4#3 then 2 else 1)
  else if rm = 4#3 then 1
  else if rm = 5#3 then 4
  else 0

/-- The eight instructions with a ModR/M byte, each with the `reg` field of that byte, for an rm
operand, a register and immediates. -/
def modrmInstrs (rm : RM) (r : Reg) (i8 : Byte) (i32 : Word) : List (BitVec 3 × Instr) :=
  [(r.field, .addRmR rm r), (r.field, .movRmR rm r), (r.field, .movRRm r rm), (0#3, .movRmImm32 rm i32),
   (0#3, .addRmImm8 rm i8), (5#3, .subRmImm8 rm i8), (7#3, .cmpRmImm8 rm i8), (0#3, .incRm rm)]

/-- The ten conditional jumps with their opcode bytes and the predicates of rule R127, read from the bits
of EFLAGS. -/
def conditionalJumps (rel : Byte) (f : Word) : List (Byte × Instr × Bool) :=
  let cf := f.getLsbD 0
  let zf := f.getLsbD 6
  let sf := f.getLsbD 7
  let of := f.getLsbD 11
  [(0x70#8, .jo rel, of), (0x71#8, .jno rel, !of), (0x72#8, .jc rel, cf), (0x73#8, .jnc rel, !cf),
   (0x74#8, .jz rel, zf), (0x75#8, .jnz rel, !zf), (0x78#8, .js rel, sf), (0x79#8, .jns rel, !sf),
   (0x7C#8, .jl rel, sf != of), (0x7E#8, .jle rel, zf || (sf != of))]

/-- An instruction that is a conditional jump. -/
def isConditionalJump : Instr → Bool
  | .jo _ | .jno _ | .jc _ | .jnc _ | .jz _ | .jnz _ | .js _ | .jns _ | .jl _ | .jle _ => true
  | _ => false

/-- An instruction that writes flags (R29). -/
def writesFlags : Instr → Bool
  | .subRmImm8 _ _ | .cmpRmImm8 _ _ => true
  | _ => false

/-- Two states that agree on everything but EFLAGS. -/
def SameButFlags (t t' : State) : Prop := t'.setEflags t.eflags = t

end Sys2Proof.Claims

open Sys2Proof Sys2Proof.Machine Sys2Proof.Claims Host.Outcome

/-! ## Reset, loading, registers and memory -/

/-- 70_reset_and_hazards.md rule R222 and 10_state.md rule R37, for every memory size the spec admits
and every initial EIP and ESP. The zero of the seven registers and of EFLAGS is the spec's own choice
(decision D4, notes/assumptions/5.md). That the run state is Running from construction on is the model's
inference from R33 and R37 (DEDUCED, notes/assumptions/18.md). The bound on the size is decision D14
(notes/assumptions/17.md). -/
def Obligations.ConstructionGivesResetState : Prop :=
  ∀ (n : Nat) (eip esp : Word), 0 < n → n < 2 ^ 32 →
    ∃ s, State.construct n eip esp = .ok s ∧ s.eip = eip ∧ s.reg .esp = esp ∧
      (∀ r, r ≠ .esp → s.reg r = 0#32) ∧ s.eflags = 0#32 ∧ s.mem.size = n ∧
      (∀ a, s.mem.byte a = 0#8) ∧ s.run = .running ∧ s.consumed = 0 ∧ s.output = []

/-- 70_reset_and_hazards.md rule R220: a memory size of 0 makes no core; a size of 2^32 or more is
refused (decision D14, notes/assumptions/17.md); and the reset state of this model is a construction.
The parameters of that state are notes/assumptions/1.md to 3.md. -/
def Obligations.ConstructionRefusesBadMemorySize : Prop :=
  ∀ (n : Nat) (eip esp : Word),
    (n = 0 → State.construct n eip esp = .error .zeroSizedMemory) ∧
    (2 ^ 32 ≤ n → State.construct n eip esp = .error .memoryTooLarge) ∧
    State.construct Config.memSize Config.initEip Config.initEsp = .ok State.reset

/-- 70_reset_and_hazards.md rule R223: `load_image` copies exactly the image's bytes, or fails. -/
def Obligations.LoadImageCopiesExactlyTheImage : Prop :=
  ∀ (s : State) (image : List Byte) (addr : Word),
    (addr.toNat + image.length ≤ s.mem.size →
      ∃ t, s.loadImage image addr = .ok t ∧
        (∀ k b, image[k]? = some b → t.mem.byte (addr.toNat + k) = b) ∧
        BytesKeptOutside addr.toNat image.length s t ∧ RegsKept [] s t ∧ t.eip = s.eip ∧
        t.eflags = s.eflags ∧ HostKept s t) ∧
    (s.mem.size < addr.toNat + image.length → s.loadImage image addr = .error .imageDoesNotFit)

/-- 20_memory.md rule R54: the four accesses, a mixed-width access that sees the bytes, and the byte order
of a four-byte code fetch. -/
def Obligations.MemoryIsLittleEndian : Prop :=
  (∀ (p : Nat) (b0 b1 b2 b3 : Byte) (rest : List Byte),
    fetch32 ⟨p, b0 :: b1 :: b2 :: b3 :: rest⟩ = .ok (b3 ++ b2 ++ b1 ++ b0, ⟨p + 4, rest⟩)) ∧
  ∀ (s : State) (a v : Word) (b : Byte),
    (a.toNat + 4 ≤ s.mem.size →
      memRead32 s a = .ok (s.mem.byte (a.toNat + 3) ++ s.mem.byte (a.toNat + 2) ++
        s.mem.byte (a.toNat + 1) ++ s.mem.byte a.toNat) ∧
      ∃ t, memWrite32 s a v = .ok t ∧ StoredAt t.mem a.toNat v ∧ BytesKeptOutside a.toNat 4 s t ∧
        RegsKept [] s t ∧ t.eip = s.eip ∧ t.eflags = s.eflags ∧ HostKept s t ∧
        memRead32 t a = .ok v ∧ memRead8 t a = .ok (v.extractLsb' 0 8) ∧
        ∀ a3 : Word, a3.toNat = a.toNat + 3 → memRead8 t a3 = .ok (v.extractLsb' 24 8)) ∧
    (a.toNat + 1 ≤ s.mem.size →
      memRead8 s a = .ok (s.mem.byte a.toNat) ∧
      ∃ t, memWrite8 s a b = .ok t ∧ t.mem.byte a.toNat = b ∧ BytesKeptOutside a.toNat 1 s t ∧
        memRead8 t a = .ok b)

/-- 20_memory.md rule R52 (decision D9): an access that does not lie in memory is a bounds error, which
names the address and the width; the sum is not reduced. That the fault records EIP is
notes/assumptions/21.md. -/
def Obligations.AccessOutsideMemoryIsBoundsError : Prop :=
  ∀ (s : State) (a v : Word) (b : Byte),
    (s.mem.size < a.toNat + 4 →
      memRead32 s a = .error (.boundsError s.eip a.toNat 4) ∧
      memWrite32 s a v = .error (.boundsError s.eip a.toNat 4)) ∧
    (s.mem.size < a.toNat + 1 →
      memRead8 s a = .error (.boundsError s.eip a.toNat 1) ∧
      memWrite8 s a b = .error (.boundsError s.eip a.toNat 1))

/-- 10_state.md rule R21 and 60_exceptions.md rule R193: lookup by number is total over 0 to 7, any
other number is `DecodeError(BadRegister)`, and no step raises it. That the failure is this kind is
decision D24. -/
def Obligations.RegisterLookupTotalBelowEight : Prop :=
  (∀ (s : State) (n : Nat),
    (n < 8 → ∃ r, s.registerByNumber n = .ok r ∧ r.field.toNat = n) ∧
    (8 ≤ n → s.registerByNumber n = .error (.decodeErrorBadRegister s.eip n))) ∧
  ∀ (s : State) (e : Word) (n : Nat), step s ≠ fault (.decodeErrorBadRegister e n)

/-- 10_state.md rule R22, first two sentences: a register write is read back, no other register and
nothing else changes, and no register is hardwired (R20). -/
def Obligations.RegisterWriteIsReadBack : Prop :=
  ∀ (s : State) (r : Reg) (v : Word),
    (s.setReg r v).reg r = v ∧ RegsKept [r] s (s.setReg r v) ∧ BytesKept s (s.setReg r v) ∧
      (s.setReg r v).eip = s.eip ∧ (s.setReg r v).eflags = s.eflags ∧ HostKept s (s.setReg r v)

/-! ## Encoding -/

/-- Words written out from the encodings of 30_encoding.md, one for each family. The opcode bytes are
general knowledge (GK1, notes/assumptions/12.md). -/
def Obligations.SpecWordsDecode : Prop :=
  decode [0xBB#8, 0x78#8, 0x56#8, 0x34#8, 0x12#8] = .ok (.movRImm32 .ebx 0x12345678#32, ⟨5, []⟩) ∧
  decode [0x8B#8, 0x45#8, 0xF8#8] = .ok (.movRRm .eax (.mem (.baseDisp8 .ebp 0xF8#8)), ⟨3, []⟩) ∧
  decode [0x01#8, 0xC8#8] = .ok (.addRmR (.reg .eax) .ecx, ⟨2, []⟩) ∧
  decode [0x83#8, 0xE9#8, 0x01#8] = .ok (.subRmImm8 (.reg .ecx) 0x01#8, ⟨3, []⟩) ∧
  decode [0x5C#8] = .ok (.popR .esp, ⟨1, []⟩) ∧
  decode [0x7C#8, 0xF1#8] = .ok (.jl 0xF1#8, ⟨2, []⟩) ∧
  decode [0xEC#8] = .ok (.inAlDx, ⟨1, []⟩)

/-- Every well-formed instruction, with every operand at every value, is read back from its own bytes,
whatever bytes follow, and the cursor stops behind them (30_encoding.md rules R70 to R89). -/
def Obligations.DecodeOfEncodeIsIdentity : Prop :=
  ∀ (i : Instr) (rest : List Byte), i.wf = true →
    decode (encode i ++ rest) = .ok (i, ⟨i.length, rest⟩)

/-- The other direction: bytes that decode are the encoding of the instruction they decode to, which is
well-formed; so no two encodings are read as one instruction and no bit of a field is dropped. -/
def Obligations.DecodedBytesAreTheEncoding : Prop :=
  ∀ (bs : List Byte) (i : Instr) (c : Cursor), decode bs = .ok (i, c) →
    i.wf = true ∧ bs = encode i ++ c.rest ∧ c.pos = (encode i).length

/-- 30_encoding.md rule R102 (the rows are decisions D1 to D3): no two rows match the same two bytes, a
decoded instruction matches its own row, and with enough bytes behind them two bytes decode exactly
when some row matches. -/
def Obligations.DecoderFollowsOpcodeTable : Prop :=
  (∀ b0 b1 : Byte, (opcodeRows.filter (fun row => rowMatches row b0 b1)).length ≤ 1) ∧
  (∀ (b0 b1 : Byte) (rest : List Byte) (i : Instr) (c : Cursor),
    decode (b0 :: b1 :: rest) = .ok (i, c) → i.row ∈ opcodeRows ∧ rowMatches i.row b0 b1 = true) ∧
  (∀ (b0 b1 : Byte) (rest : List Byte), 9 ≤ rest.length →
    ((∃ i c, decode (b0 :: b1 :: rest) = .ok (i, c)) ↔ ∃ row ∈ opcodeRows, rowMatches row b0 b1 = true))

/-- 30_encoding.md rules R72 and R74, with the table of R84: how many bytes the ModR/M descriptor takes, by
its fields, and that they are the SIB and displacement bytes of the operand; the SIB byte's value does not
matter for the length; a descriptor that is cut short is rejected. -/
def Obligations.ModRMDescriptorLength : Prop :=
  ∀ (p : Nat) (b : Byte) (rest : List Byte),
    (extraBytes (b.extractLsb' 6 2) (b.extractLsb' 0 3) ≤ rest.length →
      ∃ rm, decodeModRM ⟨p, b :: rest⟩ = .ok (b.extractLsb' 3 3, rm,
          ⟨p + 1 + extraBytes (b.extractLsb' 6 2) (b.extractLsb' 0 3),
            rest.drop (extraBytes (b.extractLsb' 6 2) (b.extractLsb' 0 3))⟩) ∧
        rm.modrm (b.extractLsb' 3 3) = b ∧
        rest = rm.tail ++ rest.drop (extraBytes (b.extractLsb' 6 2) (b.extractLsb' 0 3)) ∧
        rm.extra = extraBytes (b.extractLsb' 6 2) (b.extractLsb' 0 3)) ∧
    (rest.length < extraBytes (b.extractLsb' 6 2) (b.extractLsb' 0 3) →
      ∃ offset width, decodeModRM ⟨p, b :: rest⟩ = .error (.truncated offset width) ∧
        p < offset ∧ p + 1 + rest.length < offset + width)

/-- 30_encoding.md rules R76 to R78 (sums modulo 2^32: decision D8): the effective address of every
memory operand without a SIB byte. See notes/assumptions/11.md. -/
def Obligations.EffectiveAddressForms : Prop :=
  ∀ (s : State) (x : BitVec 3) (b : Reg) (d8 : Byte) (d32 : Word),
    effectiveAddress x (.base b) s = .ok (s.reg b) ∧
    effectiveAddress x (.abs d32) s = .ok d32 ∧
    (∃ a, effectiveAddress x (.baseDisp8 b d8) s = .ok a ∧
      (a.toNat : Int) = ((s.reg b).toNat + d8.toInt) % 2 ^ 32) ∧
    (∃ a, effectiveAddress x (.baseDisp32 b d32) s = .ok a ∧
      (a.toNat : Int) = ((s.reg b).toNat + d32.toInt) % 2 ^ 32)

/-! ## The execution loop -/

/-- 30_encoding.md rule R93: a step of a running core whose bytes at EIP decode to `i` is `exec i` with
the halt test behind it, and nothing else. -/
def Obligations.StepRunsDecodedInstruction : Prop :=
  ∀ (s : State) (i : Instr) (c : Cursor), s.run = .running → s.eip.toNat < s.mem.size →
    decode (fetchWindow s) = .ok (i, c) →
    (∀ t, exec i s = next t → step s = next (if t.eip = 0#32 then t.setRun .halted else t)) ∧
    (∀ f, exec i s = fault f → step s = fault f) ∧
    (∀ r, exec i s = refused r → step s = refused r)

/-- The same from the bytes in memory: where the encoding of a well-formed instruction lies at EIP, the
step runs that instruction, whatever bytes follow it and wherever memory ends. -/
def Obligations.StepRunsInstructionAtEip : Prop :=
  ∀ (s : State) (i : Instr), s.run = .running → i.wf = true → BytesAtEip s (encode i) →
    step s = haltTest (exec i s)

/-- 60_exceptions.md rule R197, with 30_encoding.md rule R94: after any instruction that completes, EIP = 0
halts the run, with everything else as the instruction left it; no other EIP halts; the test is not made
before an instruction, so one at address 0 runs. -/
def Obligations.HaltSentinel : Prop :=
  (∀ (s : State) (i : Instr) (c : Cursor) (t : State), s.run = .running → s.eip.toNat < s.mem.size →
    decode (fetchWindow s) = .ok (i, c) → exec i s = next t →
    ∃ u, step s = next u ∧ (t.eip = 0#32 → u.run = .halted) ∧ (t.eip ≠ 0#32 → u.run = .running) ∧
      u.regs = t.regs ∧ u.eip = t.eip ∧ u.eflags = t.eflags ∧ u.mem = t.mem ∧ u.input = t.input ∧
      u.consumed = t.consumed ∧ u.output = t.output) ∧
  (∀ (s : State) (i : Instr), s.run = .running → s.eip = 0#32 → i.wf = true → BytesAtEip s (encode i) →
    step s = haltTest (exec i s))

/-- 30_encoding.md rule R95: at the loop test, EIP at or above `MEM_SIZE` ends the run in `Exited`, and
nothing else changes. -/
def Obligations.ExitAtEndOfMemory : Prop :=
  ∀ s : State, s.run = .running → s.mem.size ≤ s.eip.toNat →
    ∃ t, step s = next t ∧ t.run = .exited ∧ t.regs = s.regs ∧ t.eip = s.eip ∧ t.eflags = s.eflags ∧
      t.mem = s.mem ∧ t.input = s.input ∧ t.consumed = s.consumed ∧ t.output = s.output

/-- 10_state.md rule R33: a terminal run state is never left by steps. That the step then
answers the same state is the model's choice (notes/assumptions/9.md). -/
def Obligations.TerminalRunStatesAreNeverLeft : Prop :=
  ∀ s t : State, s.run ≠ .running → Reaches s t → t = s ∧ step s = next s

/-- 30_encoding.md rule R101: for every byte sequence at EIP the loop performs a registered instruction,
whose encoding lies there, or ends in a named fatal state. -/
def Obligations.DecoderIsTotal : Prop :=
  ∀ s : State, s.run = .running → s.eip.toNat < s.mem.size →
    (∃ i, i.wf = true ∧ BytesAtEip s (encode i) ∧ step s = haltTest (exec i s)) ∨
    (∃ op, step s = fault (.unimplementedOpcode op s.eip)) ∨
    (∃ op ext, step s = fault (.unimplementedExtension op ext s.eip)) ∨
    (∃ a n, step s = fault (.boundsError s.eip a n))

/-- 30_encoding.md rules R88 and R92 (the registered set is decision D2): an opcode byte outside the 49
is fatal, and the diagnostic names it and EIP. See notes/assumptions/12.md. -/
def Obligations.UnregisteredOpcodeIsFatal : Prop :=
  ∀ s : State, s.run = .running → s.eip.toNat < s.mem.size →
    s.mem.byte s.eip.toNat ∉ registeredOpcodes →
    step s = fault (.unimplementedOpcode (s.mem.byte s.eip.toNat) s.eip)

/-- 30_encoding.md rule R91 (decision D3): a group opcode with an unregistered `reg` field is fatal as
soon as its ModR/M descriptor lies in memory, whether or not its immediate does. See
notes/assumptions/12.md and 25.md. -/
def Obligations.UnregisteredExtensionIsFatal : Prop :=
  ∀ (s : State) (op b : Byte), s.run = .running → op ∈ [0x83#8, 0xC7#8, 0xFF#8] →
    BytesAtEip s [op, b] → b.extractLsb' 3 3 ∉ registeredExtensions op →
    s.eip.toNat + 2 + extraBytes (b.extractLsb' 6 2) (b.extractLsb' 0 3) ≤ s.mem.size →
    step s = fault (.unimplementedExtension op (b.extractLsb' 3 3) s.eip)

/-- The fatal diagnostic tells the truth (60_exceptions.md rules R190 to R196): it names the EIP of the
failing instruction; a bounds error names an access that passes the end of memory; an opcode error names
the bytes that lie at EIP; a SIB error names the ModR/M byte, which is a SIB form. What a fault records
is decision D10, notes/assumptions/21.md. -/
def Obligations.FatalDiagnosticIsTrue : Prop :=
  ∀ (s : State) (f : Fault), step s = fault f →
    match f with
    | .decodeErrorSib e b => e = s.eip ∧ b = s.mem.byte (s.eip.toNat + 1) ∧
        b.extractLsb' 0 3 = 4#3 ∧ b.extractLsb' 6 2 ≠ 3#2
    | .decodeErrorBadRegister _ _ => False
    | .unimplementedOpcode op e => e = s.eip ∧ op = s.mem.byte s.eip.toNat ∧ op ∉ registeredOpcodes
    | .unimplementedExtension op x e => e = s.eip ∧ op = s.mem.byte s.eip.toNat ∧
        op ∈ [0x83#8, 0xC7#8, 0xFF#8] ∧ x = (s.mem.byte (s.eip.toNat + 1)).extractLsb' 3 3 ∧
        x ∉ registeredExtensions op
    | .boundsError e a n => e = s.eip ∧ s.mem.size < a + n ∧ (n = 1 ∨ n = 4)

/-- 20_memory.md rule R62 (decision D20) and 70_reset_and_hazards.md rule R228: the fetch reads current
memory, so a word stored over the bytes at EIP is what the next fetch reads there. The eleven-byte
window is notes/assumptions/22.md. -/
def Obligations.FetchReadsCurrentMemory : Prop :=
  (∀ (s : State) (k : Nat), k < maxLength → s.eip.toNat + k < s.mem.size →
    (fetchWindow s)[k]? = some (s.mem.byte (s.eip.toNat + k))) ∧
  ∀ (s t : State) (a v : Word) (k : Nat) (b : Byte), memWrite32 s a v = .ok t → (bytes32 v)[k]? = some b →
    t.eip.toNat ≤ a.toNat + k → a.toNat + k < t.eip.toNat + maxLength →
    (fetchWindow t)[a.toNat + k - t.eip.toNat]? = some b

/-- 60_exceptions.md rule R211: `EB FE` loops for ever, under any amount of fuel. The opcode bytes are
general knowledge (GK1, notes/assumptions/12.md). -/
def Obligations.JumpToItselfNeverEnds : Prop :=
  ∀ (s : State) (k : Nat), s.run = .running → s.eip ≠ 0#32 → BytesAtEip s [0xEB#8, 0xFE#8] →
    core.run k s = next s

/-! ## Invariants -/

/-- The reset state, and every state that construction makes, meets the invariant, and loading an image
keeps it. Of what the invariant says here, two parts are choices: that EFLAGS, and so its reserved bits,
is 0 at construction (decision D4, notes/assumptions/5.md), and that memory is smaller than 2^32 bytes
(decision D14, notes/assumptions/17.md). The rest is 70_reset_and_hazards.md rules R220 to R223; that
the run state is Running is DEDUCED (notes/assumptions/18.md). -/
def Obligations.ConstructionMeetsInvariant : Prop :=
  State.reset.Inv ∧
  (∀ (n : Nat) (eip esp : Word) (s : State), State.construct n eip esp = .ok s → s.Inv) ∧
  ∀ (s t : State) (image : List Byte) (addr : Word), s.Inv → s.loadImage image addr = .ok t → t.Inv

/-- Every step keeps the invariant: memory stays in canonical form and of its size, the reserved bits of
EFLAGS stay 0 (R28), no more input is consumed than was supplied (R36), `Halted` has EIP = 0 (R197) and
`Exited` has EIP at or above `MEM_SIZE` (R198). That the reserved bits are 0 is decisions D4 and D18,
notes/assumptions/5.md and 16.md. -/
def Obligations.StepKeepsInvariant : Prop :=
  ∀ s t : State, s.Inv → step s = next t → t.Inv

/-- A step never changes the size of memory (R31) or the input stream, consumes at most one byte of it,
in order, and only ever appends one byte to the output (R36, R205, R206). -/
def Obligations.StepKeepsSizeAndStreams : Prop :=
  ∀ s t : State, step s = next t →
    t.mem.size = s.mem.size ∧ t.input = s.input ∧
    (t.consumed = s.consumed ∨ t.consumed = s.consumed + 1 ∧ s.consumed < s.input.length) ∧
    (t.output = s.output ∨ ∃ b, t.output = s.output ++ [b])

/-! ## Whole-machine rules -/

/-- 10_state.md rule R29: the four predicates are their bits; `set_flags` replaces the register; only SUB
and CMP write flags, through the subtraction-flag routine; only the conditional jumps read them, so two states that differ in EFLAGS alone go
on to states that differ in EFLAGS alone. -/
def Obligations.FlagWritersAndReaders : Prop :=
  (∀ f : Word, isCarry f = f.getLsbD 0 ∧ isZero f = f.getLsbD 6 ∧ isSign f = f.getLsbD 7 ∧
    isOverflow f = f.getLsbD 11) ∧
  (∀ (s : State) (v : Word), (s.setEflags v).eflags = v) ∧
  (∀ (i : Instr) (s t : State), exec i s = next t →
    (writesFlags i = false → t.eflags = s.eflags) ∧
    (writesFlags i = true → ∃ op1 op2, t.eflags = subFlags op1 op2 s.eflags)) ∧
  (∀ (i : Instr) (s : State) (v : Word), isConditionalJump i = false →
    (∀ t, exec i s = next t → ∃ t', exec i (s.setEflags v) = next t' ∧ SameButFlags t t') ∧
    (∀ f, exec i s = fault f → exec i (s.setEflags v) = fault f) ∧
    (∀ r, exec i s = refused r → exec i (s.setEflags v) = refused r))

/-- 30_encoding.md rule R96: what EIP is when an instruction has completed. A non-transfer and a jump
not taken leave `s + len`; a transfer leaves its target; the loop never advances EIP. The target of a
relative transfer is rule R87, and that it is reduced modulo 2^32 is the choice of decision D8
(notes/assumptions/11.md); the word that RET pops is 43_control_transfer.md rule R174. -/
def Obligations.EipAfterInstruction : Prop :=
  (∀ (s t : State) (i : Instr) (c : Cursor), s.run = .running → s.eip.toNat < s.mem.size →
    decode (fetchWindow s) = .ok (i, c) → exec i s = next t → ∃ u, step s = next u ∧ u.eip = t.eip) ∧
  ∀ (i : Instr) (s t : State), exec i s = next t →
    match i with
    | .jmpRel8 d => t.eip = s.eip + 2#32 + d.signExtend 32
    | .jmpRel32 d => t.eip = s.eip + 5#32 + d
    | .callRel32 d => t.eip = s.eip + 5#32 + d
    | .ret => StoredAt s.mem (s.reg .esp).toNat t.eip
    | i =>
      if isConditionalJump i then
        ∀ d, ∀ j ∈ conditionalJumps d s.eflags, i = j.2.1 →
          t.eip = if j.2.2 then s.eip + 2#32 + d.signExtend 32 else s.eip + 2#32
      else t.eip = s.eip + BitVec.ofNat 32 i.length

/-- 10_state.md rule R32: only IN and OUT reach the port space, and only port 0x03F8 has an effect. -/
def Obligations.OnlyPortInstructionsReachPorts : Prop :=
  ∀ (i : Instr) (s t : State), exec i s = next t →
    i ≠ .inAlDx ∧ i ≠ .outDxAl ∨ (s.reg .edx).extractLsb' 0 16 ≠ 0x03F8#16 →
    t.input = s.input ∧ t.consumed = s.consumed ∧ t.output = s.output

/-- 60_exceptions.md rule R207 (decision D15, notes/assumptions/8.md): a step is refused exactly when IN
reads port 0x03F8 with no input byte left, as `Blocked`; with one more byte the same state goes on. The
opcode bytes are general knowledge (GK1, notes/assumptions/12.md). -/
def Obligations.BlockedOnlyWithoutInputByte : Prop :=
  ∀ s : State,
    ((∃ r, step s = refused r) ↔
      s.run = .running ∧ s.eip.toNat < s.mem.size ∧ s.mem.byte s.eip.toNat = 0xEC#8 ∧
        (s.reg .edx).extractLsb' 0 16 = 0x03F8#16 ∧ s.input.length ≤ s.consumed) ∧
    (∀ r, step s = refused r → r = .blockedOnInput ∧ stepOutcome s = .blocked) ∧
    (∀ r b, step s = refused r → s.consumed = s.input.length → ∃ t, step (s.supplyInput [b]) = next t)

/-- 60_exceptions.md rules R207 and R212: input that has not been read yet changes nothing. A step that
completes gives the same state whatever more the host supplies, and a fatal step the same fault. The
stream as a list in the state is notes/assumptions/7.md. -/
def Obligations.UnreadInputDoesNotMatter : Prop :=
  ∀ (s : State) (more : List Byte),
    (∀ t, step s = next t → step (s.supplyInput more) = next (t.supplyInput more)) ∧
    (∀ f, step s = fault f → step (s.supplyInput more) = fault f)

/-! ## Data movement -/

/-- 40_data_movement.md rule R110: the opcode bytes and length, the result, the frame, and the fatal
condition of a code fetch past the end of memory. The opcode bytes other than B8 are general knowledge
(GK1, notes/assumptions/12.md). -/
def Obligations.MovImmediateToRegister : Prop :=
  ∀ (r : Reg) (imm : Word) (s : State),
    encode (.movRImm32 r imm) = BitVec.ofNat 8 (0xB8 + r.field.toNat) :: bytes32 imm ∧
    (∃ t, exec (.movRImm32 r imm) s = next t ∧ t.reg r = imm ∧ RegsKept [r] s t ∧ BytesKept s t ∧
      t.eip = s.eip + 5#32 ∧ t.eflags = s.eflags ∧ HostKept s t) ∧
    (s.run = .running → s.eip.toNat < s.mem.size → s.mem.size < s.eip.toNat + 5 →
      s.mem.byte s.eip.toNat = BitVec.ofNat 8 (0xB8 + r.field.toNat) →
      step s = fault (.boundsError s.eip (s.eip.toNat + 1) 4))

/-- 40_data_movement.md rules R111 and R113: MOV r/m32, r32 and MOV r/m32, imm32 write the operand and
change nothing else but EIP. -/
def Obligations.MovWritesOperand : Prop :=
  ∀ (rm : RM) (r : Reg) (imm : Word) (s : State), Accessible rm s →
    (∃ t, exec (.movRmR rm r) s = next t ∧ OperandWritten rm (s.reg r) s t ∧
      t.eip = s.eip + BitVec.ofNat 32 (2 + rm.extra) ∧ t.eflags = s.eflags ∧ HostKept s t) ∧
    (∃ t, exec (.movRmImm32 rm imm) s = next t ∧ OperandWritten rm imm s t ∧
      t.eip = s.eip + BitVec.ofNat 32 (6 + rm.extra) ∧ t.eflags = s.eflags ∧ HostKept s t)

/-- 40_data_movement.md rule R112: MOV r32, r/m32 loads the operand, whose address is computed from the
old registers even where the destination is the base. -/
def Obligations.MovLoadsOperand : Prop :=
  ∀ (r : Reg) (rm : RM) (v : Word) (s : State), Accessible rm s → OperandHolds rm s v →
    ∃ t, exec (.movRRm r rm) s = next t ∧ t.reg r = v ∧ RegsKept [r] s t ∧ BytesKept s t ∧
      t.eip = s.eip + BitVec.ofNat 32 (2 + rm.extra) ∧ t.eflags = s.eflags ∧ HostKept s t

/-! ## Arithmetic -/

/-- 41_arithmetic.md rules R122, R123 and R126: ADD and INC write the sum modulo 2^32 to the operand,
write no flag, and change nothing else but EIP. -/
def Obligations.AddAndIncWrapAndWriteNoFlag : Prop :=
  ∀ (rm : RM) (r : Reg) (imm : Byte) (v : Word) (s : State), Accessible rm s → OperandHolds rm s v →
    (∃ t, exec (.addRmR rm r) s = next t ∧
      OperandWritten rm (BitVec.ofNat 32 (v.toNat + (s.reg r).toNat)) s t ∧
      t.eip = s.eip + BitVec.ofNat 32 (2 + rm.extra) ∧ t.eflags = s.eflags ∧ HostKept s t) ∧
    (∃ t, exec (.addRmImm8 rm imm) s = next t ∧
      OperandWritten rm (BitVec.ofInt 32 (v.toNat + imm.toInt)) s t ∧
      t.eip = s.eip + BitVec.ofNat 32 (3 + rm.extra) ∧ t.eflags = s.eflags ∧ HostKept s t) ∧
    (∃ t, exec (.incRm rm) s = next t ∧
      OperandWritten rm (BitVec.ofNat 32 (v.toNat + 1)) s t ∧
      t.eip = s.eip + BitVec.ofNat 32 (2 + rm.extra) ∧ t.eflags = s.eflags ∧ HostKept s t)

/-- 41_arithmetic.md rule R124: SUB writes the difference modulo 2^32 to the operand and the four flags
of the subtraction; the other bits of EFLAGS stay (the spec's choice, decision D18). See
notes/assumptions/16.md. -/
def Obligations.SubWritesDifferenceAndFlags : Prop :=
  ∀ (rm : RM) (imm : Byte) (v : Word) (s : State), Accessible rm s → OperandHolds rm s v →
    ∃ t, exec (.subRmImm8 rm imm) s = next t ∧
      OperandWritten rm (BitVec.ofInt 32 (v.toNat - imm.toInt)) s t ∧
      SubtractionFlags v (imm.signExtend 32) s.eflags t.eflags ∧
      t.eip = s.eip + BitVec.ofNat 32 (3 + rm.extra) ∧ HostKept s t

/-- 41_arithmetic.md rule R125: CMP writes the four flags of the subtraction and nothing else but EIP.
That the other bits of EFLAGS stay is decision D18, notes/assumptions/16.md. -/
def Obligations.CmpWritesOnlyFlags : Prop :=
  ∀ (rm : RM) (imm : Byte) (v : Word) (s : State), Accessible rm s → OperandHolds rm s v →
    ∃ t, exec (.cmpRmImm8 rm imm) s = next t ∧ RegsKept [] s t ∧ BytesKept s t ∧
      SubtractionFlags v (imm.signExtend 32) s.eflags t.eflags ∧
      t.eip = s.eip + BitVec.ofNat 32 (3 + rm.extra) ∧ HostKept s t

/-- 41_arithmetic.md rule R120: the subtraction-flag routine, for every pair of operands. That the other
28 bits stay is the spec's choice (decision D18). See notes/assumptions/16.md. -/
def Obligations.SubFlagsOfEveryPair : Prop :=
  ∀ op1 op2 f : Word, SubtractionFlags op1 op2 f (subFlags op1 op2 f) ∧
    (isSign (subFlags op1 op2 f) = (op1 - op2).getLsbD 31) ∧
    (isOverflow (subFlags op1 op2 f) = true ↔
      op1.getLsbD 31 ≠ op2.getLsbD 31 ∧ (op1 - op2).getLsbD 31 ≠ op1.getLsbD 31)

/-- 41_arithmetic.md rule R127, last sentence (the spec's own derivation): after a subtraction the
conditions L, LE and C compare the operands. -/
def Obligations.ConditionsCompareAfterSubtraction : Prop :=
  ∀ a b f : Word,
    (condHolds .l (subFlags a b f) = true ↔ a.toInt < b.toInt) ∧
    (condHolds .le (subFlags a b f) = true ↔ a.toInt ≤ b.toInt) ∧
    (condHolds .c (subFlags a b f) = true ↔ a.toNat < b.toNat) ∧
    (condHolds .z (subFlags a b f) = true ↔ a = b)

/-! ## Stack -/

/-- 42_stack.md rules R142 to R144: the three pushes. `PUSH ESP` stores the old ESP (decision D6); the
imm8 of `6A` is widened by the free value `PUSH_IMM8_EXT` (notes/assumptions/6.md), for either setting.
PUSH ESP is notes/assumptions/15.md. Sums of ESP are reduced modulo 2^32 (decision D8,
notes/assumptions/11.md). -/
def Obligations.PushStoresBelowEsp : Prop :=
  ∀ (r : Reg) (i32 : Word) (i8 : Byte) (s : State), PushFits s →
    (∃ t, exec (.pushR r) s = next t ∧ Pushed (s.reg r) s t ∧ t.eip = s.eip + 1#32 ∧
      t.eflags = s.eflags ∧ HostKept s t) ∧
    (∃ t, exec (.pushImm32 i32) s = next t ∧ Pushed i32 s t ∧ t.eip = s.eip + 5#32 ∧
      t.eflags = s.eflags ∧ HostKept s t) ∧
    (∃ t, exec (.pushImm8 i8) s = next t ∧
      Pushed (match Config.pushImm8Ext with | .sign => i8.signExtend 32 | .zero => i8.setWidth 32) s t ∧
      t.eip = s.eip + 2#32 ∧ t.eflags = s.eflags ∧ HostKept s t) ∧
    (i8.toNat < 0x80 → ∃ t, exec (.pushImm8 i8) s = next t ∧ Pushed (BitVec.ofNat 32 i8.toNat) s t)

/-- 42_stack.md rule R145: POP loads the word at ESP and then increments ESP; for POP ESP the loaded
value stays (decision D7). See notes/assumptions/15.md. Sums of ESP are reduced modulo 2^32 (decision
D8, notes/assumptions/11.md). -/
def Obligations.PopLoadsAndIncrements : Prop :=
  ∀ (r : Reg) (v : Word) (s : State), (s.reg .esp).toNat + 4 ≤ s.mem.size →
    StoredAt s.mem (s.reg .esp).toNat v →
    ∃ t, exec (.popR r) s = next t ∧ t.reg r = v ∧ (r ≠ .esp → t.reg .esp = s.reg .esp + 4#32) ∧
      RegsKept [r, .esp] s t ∧ BytesKept s t ∧ t.eip = s.eip + 1#32 ∧ t.eflags = s.eflags ∧ HostKept s t

/-- 42_stack.md rule R146: LEAVE, its fatal condition, and the final ESP. The opcode bytes are general
knowledge (GK1, notes/assumptions/12.md). Sums of ESP are reduced modulo 2^32 (decision D8,
notes/assumptions/11.md). -/
def Obligations.LeaveRestoresFrame : Prop :=
  encode .leave = [0xC9#8] ∧
  ∀ (s : State) (v : Word),
    ((s.reg .ebp).toNat + 4 ≤ s.mem.size → StoredAt s.mem (s.reg .ebp).toNat v →
      ∃ t, exec .leave s = next t ∧ t.reg .ebp = v ∧ t.reg .esp = s.reg .ebp + 4#32 ∧
        RegsKept [.esp, .ebp] s t ∧ BytesKept s t ∧ t.eip = s.eip + 1#32 ∧ t.eflags = s.eflags ∧
        HostKept s t) ∧
    (s.mem.size < (s.reg .ebp).toNat + 4 →
      exec .leave s = fault (.boundsError s.eip (s.reg .ebp).toNat 4))

/-- 42_stack.md rule R147: PUSH r and then POP r leaves `r` and ESP as they were, and of memory only the
slot holds `x[r]`. -/
def Obligations.PushThenPopRestores : Prop :=
  ∀ (r : Reg) (s : State), r ≠ .esp → 4 ≤ (s.reg .esp).toNat → (s.reg .esp).toNat ≤ s.mem.size →
    ∃ t u, exec (.pushR r) s = next t ∧ exec (.popR r) t = next u ∧ RegsKept [] s u ∧
      StoredAt u.mem ((s.reg .esp).toNat - 4) (s.reg r) ∧
      BytesKeptOutside ((s.reg .esp).toNat - 4) 4 s u ∧ u.eflags = s.eflags ∧ HostKept s u

/-- 42_stack.md rules R140 and R141 and 43_control_transfer.md rule R173: a stack slot that does not lie
in memory is a bounds error at the slot's address; with ESP below 4 the pushed slot wraps and always
fails. The reduction modulo 2^32 and the bound on the size are decisions D8 and D14,
notes/assumptions/11.md and 17.md. -/
def Obligations.StackSlotOutsideMemoryIsFatal : Prop :=
  ∀ (r : Reg) (i32 : Word) (i8 : Byte) (s : State),
    (s.mem.size < (s.reg .esp - 4#32).toNat + 4 →
      ∀ i ∈ [Instr.pushR r, .pushImm32 i32, .pushImm8 i8, .callRel32 i32],
        exec i s = fault (.boundsError s.eip (s.reg .esp - 4#32).toNat 4)) ∧
    (s.mem.size < (s.reg .esp).toNat + 4 →
      ∀ i ∈ [Instr.popR r, .ret], exec i s = fault (.boundsError s.eip (s.reg .esp).toNat 4)) ∧
    ((s.reg .esp).toNat < 4 → s.mem.size < 2 ^ 32 → s.mem.size < (s.reg .esp - 4#32).toNat + 4)

/-! ## Operands that are fatal -/

/-- 60_exceptions.md rule R192: every instruction with a ModR/M byte raises `DecodeError(SIB)` on an
operand with a SIB byte, and records EIP and the ModR/M byte. -/
def Obligations.SibOperandIsFatal : Prop :=
  ∀ (m : MemOp) (sib d8 : Byte) (d32 : Word) (r : Reg) (i8 : Byte) (i32 : Word) (s : State),
    m ∈ [MemOp.sib sib, .sibDisp8 sib d8, .sibDisp32 sib d32] →
    ∀ p ∈ modrmInstrs (.mem m) r i8 i32,
      exec p.2 s = fault (.decodeErrorSib s.eip ((RM.mem m).modrm p.1)) ∧
      (encode p.2)[1]? = some ((RM.mem m).modrm p.1) ∧
      ((RM.mem m).modrm p.1).extractLsb' 0 3 = 4#3 ∧ ((RM.mem m).modrm p.1).extractLsb' 6 2 ≠ 3#2

/-- 60_exceptions.md rule R196: every instruction with a ModR/M byte raises a bounds error on a memory
operand whose four bytes do not lie in memory. Addresses are reduced modulo 2^32 before the check
(decision D8, notes/assumptions/11.md). -/
def Obligations.OperandOutsideMemoryIsFatal : Prop :=
  ∀ (m : MemOp) (a : Word) (r : Reg) (i8 : Byte) (i32 : Word) (s : State),
    operandAddress m s = some a → s.mem.size < a.toNat + 4 →
    ∀ p ∈ modrmInstrs (.mem m) r i8 i32, exec p.2 s = fault (.boundsError s.eip a.toNat 4)

/-! ## Control transfer -/

/-- 43_control_transfer.md rules R163 to R172: the opcode byte of each conditional jump, its predicate,
its target, and that it changes nothing but EIP. The opcode bytes are general knowledge (GK1,
notes/assumptions/12.md). Targets are reduced modulo 2^32 (decision D8, notes/assumptions/11.md). -/
def Obligations.ConditionalJumpsTestTheirFlags : Prop :=
  ∀ (rel : Byte) (s : State), ∀ j ∈ conditionalJumps rel s.eflags,
    encode j.2.1 = [j.1, rel] ∧
    ∃ t, exec j.2.1 s = next t ∧
      t.eip = (if j.2.2 then s.eip + 2#32 + rel.signExtend 32 else s.eip + 2#32) ∧
      RegsKept [] s t ∧ BytesKept s t ∧ t.eflags = s.eflags ∧ HostKept s t

/-- 43_control_transfer.md rule R162 (decision D11): the rel8 byte is fetched whether or not the jump is
taken, so a conditional jump in the last byte of memory is fatal under any flags. See
notes/assumptions/14.md. -/
def Obligations.ConditionalJumpAtEndOfMemoryIsFatal : Prop :=
  ∀ (rel : Byte) (s : State), ∀ j ∈ conditionalJumps rel s.eflags, s.run = .running →
    s.eip.toNat + 1 = s.mem.size → s.mem.byte s.eip.toNat = j.1 →
    step s = fault (.boundsError s.eip (s.eip.toNat + 1) 1)

/-- 30_encoding.md rule R87: the target of a relative transfer is `s + len + rel` with the displacement
signed, here over the integers. JMP changes nothing but EIP. That the sum is reduced modulo 2^32 is the
choice of decision D8, notes/assumptions/11.md. -/
def Obligations.RelativeTargetsAreSigned : Prop :=
  ∀ (d8 : Byte) (d32 : Word) (s : State),
    (∃ t, exec (.jmpRel8 d8) s = next t ∧ (t.eip.toNat : Int) = (s.eip.toNat + 2 + d8.toInt) % 2 ^ 32 ∧
      RegsKept [] s t ∧ BytesKept s t ∧ t.eflags = s.eflags ∧ HostKept s t) ∧
    (∃ t, exec (.jmpRel32 d32) s = next t ∧ (t.eip.toNat : Int) = (s.eip.toNat + 5 + d32.toInt) % 2 ^ 32 ∧
      RegsKept [] s t ∧ BytesKept s t ∧ t.eflags = s.eflags ∧ HostKept s t) ∧
    (∀ t, exec (.callRel32 d32) s = next t →
      (t.eip.toNat : Int) = (s.eip.toNat + 5 + d32.toInt) % 2 ^ 32) ∧
    (∀ j ∈ conditionalJumps d8 s.eflags, j.2.2 = true → ∀ t, exec j.2.1 s = next t →
      (t.eip.toNat : Int) = (s.eip.toNat + 2 + d8.toInt) % 2 ^ 32)

/-- 43_control_transfer.md rule R173: CALL pushes the address of the next instruction and jumps. Sums of
ESP and EIP are reduced modulo 2^32 (decision D8, notes/assumptions/11.md). -/
def Obligations.CallPushesReturnAddress : Prop :=
  ∀ (rel : Word) (s : State), PushFits s →
    ∃ t, exec (.callRel32 rel) s = next t ∧ Pushed (s.eip + 5#32) s t ∧ t.eip = s.eip + 5#32 + rel ∧
      t.eflags = s.eflags ∧ HostKept s t

/-- 43_control_transfer.md rule R174: RET, its fatal condition, the halt on a popped 0, and that there
is no form with an immediate. The opcode bytes are general knowledge (GK1, notes/assumptions/12.md).
Sums of ESP are reduced modulo 2^32 (decision D8, notes/assumptions/11.md). -/
def Obligations.RetPopsEip : Prop :=
  encode .ret = [0xC3#8] ∧
  (∀ bs, decode (0xC2#8 :: bs) = .error (.unimplementedOpcode 0xC2#8)) ∧
  ∀ (s : State) (v : Word),
    ((s.reg .esp).toNat + 4 ≤ s.mem.size → StoredAt s.mem (s.reg .esp).toNat v →
      ∃ t, exec .ret s = next t ∧ t.eip = v ∧ t.reg .esp = s.reg .esp + 4#32 ∧ RegsKept [.esp] s t ∧
        BytesKept s t ∧ t.eflags = s.eflags ∧ HostKept s t ∧
        (v = 0#32 → haltTest (exec .ret s) = next (t.setRun .halted)) ∧
        (v.toNat ≥ s.mem.size → t.run = .running → step t = next (t.setRun .exited))) ∧
    (s.mem.size < (s.reg .esp).toNat + 4 →
      exec .ret s = fault (.boundsError s.eip (s.reg .esp).toNat 4))

/-! ## Ports -/

/-- 60_exceptions.md rule R205, through the instruction that makes the read (44_port_io.md rules R180
and R181). On port 0x03F8 the next input byte goes to AL and one byte is consumed; with no byte the
instruction blocks; on every other port AL becomes 0. The upper half of EDX does not matter, and IN is
never fatal. The blocking clause is rule R207; that it is a refusal, and that a stream that has ended
blocks too (decision D15), is the choice of notes/assumptions/8.md. -/
def Obligations.InReadsPortByte : Prop :=
  ∀ s : State,
    ((s.reg .edx).extractLsb' 0 16 = 0x03F8#16 → ∀ b, s.input[s.consumed]? = some b →
      ∃ t, exec .inAlDx s = next t ∧ (t.reg .eax).extractLsb' 0 8 = b ∧
        (t.reg .eax).extractLsb' 8 24 = (s.reg .eax).extractLsb' 8 24 ∧ RegsKept [.eax] s t ∧
        BytesKept s t ∧ t.eip = s.eip + 1#32 ∧ t.eflags = s.eflags ∧ t.run = s.run ∧
        t.input = s.input ∧ t.consumed = s.consumed + 1 ∧ t.output = s.output) ∧
    ((s.reg .edx).extractLsb' 0 16 = 0x03F8#16 → s.input[s.consumed]? = none →
      exec .inAlDx s = refused .blockedOnInput) ∧
    ((s.reg .edx).extractLsb' 0 16 ≠ 0x03F8#16 →
      ∃ t, exec .inAlDx s = next t ∧ (t.reg .eax).extractLsb' 0 8 = 0#8 ∧
        (t.reg .eax).extractLsb' 8 24 = (s.reg .eax).extractLsb' 8 24 ∧ RegsKept [.eax] s t ∧
        BytesKept s t ∧ t.eip = s.eip + 1#32 ∧ t.eflags = s.eflags ∧ HostKept s t)

/-- 60_exceptions.md rule R206, through the instruction that makes the write (44_port_io.md rules R180 and
R182). On port 0x03F8 AL is appended to the host output; every
other port ignores the write. No register changes, and OUT is never fatal. -/
def Obligations.OutWritesPortByte : Prop :=
  ∀ s : State, ∃ t, exec .outDxAl s = next t ∧ RegsKept [] s t ∧ BytesKept s t ∧ t.eip = s.eip + 1#32 ∧
    t.eflags = s.eflags ∧ t.run = s.run ∧ t.input = s.input ∧ t.consumed = s.consumed ∧
    ((s.reg .edx).extractLsb' 0 16 = 0x03F8#16 →
      t.output = s.output ++ [(s.reg .eax).extractLsb' 0 8]) ∧
    ((s.reg .edx).extractLsb' 0 16 ≠ 0x03F8#16 → t.output = s.output)
end

