-- ==== Sys2Proof/Laws/Decode.lean ====
section
/-! SUPPORT. The decoder's parts read back what the encoder's parts wrote. -/

namespace Sys2Proof

/-! ## Failing computations -/

/-- A bind that succeeds succeeded in both its parts. -/
theorem bind_ok {ε α β : Type} {x : Except ε α} {f : α → Except ε β} {b : β} :
    (x >>= f) = .ok b ↔ ∃ a, x = .ok a ∧ f a = .ok b := by
  cases x <;> simp [bind, Except.bind]

/-- A bind that fails failed in its first part, or in its second after the first succeeded. -/
theorem bind_error {ε α β : Type} {x : Except ε α} {f : α → Except ε β} {e : ε} :
    (x >>= f) = .error e ↔ x = .error e ∨ ∃ a, x = .ok a ∧ f a = .error e := by
  cases x <;> simp [bind, Except.bind]

@[simp] theorem ok_bind {ε α β : Type} (a : α) (f : α → Except ε β) :
    ((Except.ok a : Except ε α) >>= f) = f a := rfl

@[simp] theorem error_bind {ε α β : Type} (e : ε) (f : α → Except ε β) :
    ((Except.error e : Except ε α) >>= f) = .error e := rfl

/-! ## Fields, bytes and fetches -/

@[simp] theorem Reg.ofField_field (r : Reg) : Reg.ofField r.field = r := by cases r <;> rfl

@[simp] theorem Reg.field_ofField (f : BitVec 3) : (Reg.ofField f).field = f := by
  revert f; decide

@[simp] theorem fetch8_cons (p : Nat) (b : Byte) (bs : List Byte) :
    fetch8 ⟨p, b :: bs⟩ = .ok (b, ⟨p + 1, bs⟩) := rfl

@[simp] theorem fetch8_nil (p : Nat) : fetch8 ⟨p, []⟩ = .error (.truncated p 1) := rfl

/-- A one-byte read takes the first byte left. -/
theorem fetch8_ok {c d : Cursor} {b : Byte} (h : fetch8 c = .ok (b, d)) :
    c.rest = b :: d.rest ∧ d.pos = c.pos + 1 := by
  obtain ⟨p, bs⟩ := c
  cases bs with
  | nil => cases h
  | cons a bs => cases h; exact ⟨rfl, rfl⟩

/-- A word is put together again from its four bytes. -/
theorem word32_bytes (v : Word) :
    word32 (v.extractLsb' 0 8) (v.extractLsb' 8 8) (v.extractLsb' 16 8) (v.extractLsb' 24 8) = v := by
  apply BitVec.eq_of_getLsbD_eq
  intro i hi
  simp only [word32, BitVec.getLsbD_append, BitVec.getLsbD_extractLsb']
  by_cases h1 : i < 8
  · simp [h1]
  · by_cases h2 : i - 8 < 8
    · simp [h1, h2, show 8 + (i - 8) = i by omega]
    · by_cases h3 : i - 8 - 8 < 8
      · simp [h1, h2, h3, show 16 + (i - 8 - 8) = i by omega]
      · simp [h1, h2, h3, show i - 8 - 8 - 8 < 8 by omega, show 24 + (i - 8 - 8 - 8) = i by omega]

@[simp] theorem bytes32_length (v : Word) : (bytes32 v).length = 4 := rfl

/-- A four-byte read takes the four bytes of the word it reads. -/
theorem fetch32_bytes (p : Nat) (v : Word) (bs : List Byte) :
    fetch32 ⟨p, bytes32 v ++ bs⟩ = .ok (v, ⟨p + 4, bs⟩) := by
  simp [fetch32, bytes32, word32_bytes]

theorem bytes32_word32 (b0 b1 b2 b3 : Byte) : bytes32 (word32 b0 b1 b2 b3) = [b0, b1, b2, b3] := by
  simp only [bytes32, word32, List.cons.injEq, and_true]
  refine ⟨?_, ?_, ?_, ?_⟩ <;>
  · apply BitVec.eq_of_getLsbD_eq
    intro i hi
    simp only [BitVec.getLsbD_extractLsb', BitVec.getLsbD_append, hi, decide_true, Bool.true_and]
    simp [hi, show ¬ 8 + i < 8 by omega, show ¬ 16 + i < 8 by omega, show ¬ 24 + i < 8 by omega,
      show 8 + i - 8 = i by omega, show 16 + i - 8 = 8 + i by omega, show 24 + i - 8 = 16 + i by omega]

theorem fetch32_ok {c d : Cursor} {v : Word} (h : fetch32 c = .ok (v, d)) :
    c.rest = bytes32 v ++ d.rest ∧ d.pos = c.pos + 4 := by
  obtain ⟨p, bs⟩ := c
  unfold fetch32 at h
  split at h
  · next b0 b1 b2 b3 rest hb =>
    cases h
    simp_all [bytes32_word32]
  · cases h

/-! ## The ModR/M byte -/

/-- The three fields of a ModR/M byte put together (R72). -/
theorem modrm_fields (mod : BitVec 2) (x rm : BitVec 3) :
    ((mod ++ x ++ rm : BitVec 8).extractLsb' 6 2 = mod) ∧
    ((mod ++ x ++ rm : BitVec 8).extractLsb' 3 3 = x) ∧
    ((mod ++ x ++ rm : BitVec 8).extractLsb' 0 3 = rm) := by
  revert mod x rm; decide

/-- A byte is its three ModR/M fields. -/
theorem modrm_of_fields (b : Byte) :
    (b.extractLsb' 6 2 ++ b.extractLsb' 3 3 ++ b.extractLsb' 0 3 : BitVec 8) = b := by
  revert b; decide

theorem RM.modrm_fields (x : BitVec 3) (rm : RM) :
    (rm.modrm x).extractLsb' 6 2 = rm.modField ∧ (rm.modrm x).extractLsb' 3 3 = x ∧
    (rm.modrm x).extractLsb' 0 3 = rm.rmField :=
  Sys2Proof.modrm_fields rm.modField x rm.rmField

/-- The ModR/M descriptor of a well-formed rm operand is read back, whatever follows it. -/
theorem decodeModRM_bytes (p : Nat) (x : BitVec 3) (rm : RM) (rest : List Byte) (h : rm.wf = true) :
    decodeModRM ⟨p, rm.bytes x ++ rest⟩ = .ok (x, rm, ⟨p + 1 + rm.extra, rest⟩) := by
  obtain ⟨hm, hx, hr⟩ := RM.modrm_fields x rm
  simp only [decodeModRM, RM.bytes, List.cons_append, fetch8_cons, ok_bind, hm, hx, hr]
  cases rm with
  | reg r => simp [RM.modField, RM.rmField, RM.tail, RM.extra]
  | mem m =>
    cases m with
    | base b =>
      cases b <;> first
        | rfl
        | exact nomatch h
    | abs d =>
      simp [RM.modField, RM.rmField, RM.tail, RM.extra, decodeBase, fetch32_bytes]
    | baseDisp8 b d =>
      cases b <;> first
        | rfl
        | exact nomatch h
    | baseDisp32 b d =>
      have hb : b.field ≠ 4#3 := by
        cases b <;> first | decide | exact nomatch h
      simp [RM.modField, RM.rmField, RM.tail, RM.extra, decodeBase, fetch32_bytes, hb]
    | sib s => rfl
    | sibDisp8 s d => rfl
    | sibDisp32 s d =>
      simp [RM.modField, RM.rmField, RM.tail, RM.extra, decodeSib, fetch32_bytes, Nat.add_assoc]

/-- The descriptor has the ModR/M byte and the bytes of rule R84. -/
@[simp] theorem RM.bytes_length (x : BitVec 3) (rm : RM) : (rm.bytes x).length = 1 + rm.extra := by
  rcases rm with r | m
  · rfl
  · cases m <;> rfl

theorem RM.extra_le (rm : RM) : rm.extra ≤ 5 := by
  rcases rm with r | m
  · exact Nat.zero_le 5
  · cases m <;> simp [RM.extra]

/-! ## What a decoded descriptor says -/

theorem Reg.ofField_ne_esp {f : BitVec 3} (h4 : f ≠ 4#3) : (Reg.ofField f != .esp) = true := by
  revert f; decide

theorem Reg.ofField_base {f : BitVec 3} (h4 : f ≠ 4#3) (h5 : f ≠ 5#3) :
    (Reg.ofField f != .esp && Reg.ofField f != .ebp) = true := by
  revert f; decide

theorem mod_eq_zero {m : BitVec 2} (h3 : m ≠ 3#2) (h2 : m ≠ 2#2) (h1 : m ≠ 1#2) : m = 0#2 := by
  revert m; decide

/-- A byte from its number. -/
theorem byte_of_toNat {op : Byte} {n : Nat} (h : op.toNat = n) : op = BitVec.ofNat 8 n := by
  apply BitVec.eq_of_toNat_eq
  have := op.isLt
  simp only [BitVec.toNat_ofNat]
  omega

/-- A descriptor that decodes is the encoding of the well-formed rm operand it decodes to. -/
theorem decodeModRM_ok {c d : Cursor} {x : BitVec 3} {rm : RM} (h : decodeModRM c = .ok (x, rm, d)) :
    rm.wf = true ∧ c.rest = rm.bytes x ++ d.rest ∧ d.pos = c.pos + 1 + rm.extra := by
  simp only [decodeModRM, bind_ok, Prod.exists] at h
  obtain ⟨b, c1, h1, h⟩ := h
  obtain ⟨hr1, hp1⟩ := fetch8_ok h1
  have hb := modrm_of_fields b
  generalize hmod : b.extractLsb' 6 2 = mod at h hb
  generalize hreg : b.extractLsb' 3 3 = reg at h hb
  generalize hrm : b.extractLsb' 0 3 = rf at h hb
  have fin : ∀ (rm : RM), rm.modField = mod → rm.rmField = rf → x = reg → rm.modrm x = b := by
    intro rm h1 h2 h3; rw [← hb, RM.modrm, h1, h2, h3]
  split at h
  · next hm =>
    cases h
    exact ⟨rfl, by rw [RM.bytes, fin (.reg (Reg.ofField rf)) hm.symm (Reg.field_ofField _) rfl]; exact hr1, hp1⟩
  · next hm =>
    split at h
    · next hr4 =>
      simp only [bind_ok, Prod.exists, decodeSib] at h
      obtain ⟨m, c2, ⟨sib, c3, h3, h4⟩, h5⟩ := h
      obtain ⟨hr3, hp3⟩ := fetch8_ok h3
      cases h5
      split at h4
      · next hm2 =>
        simp only [bind_ok, Prod.exists] at h4
        obtain ⟨dd, c4, h6, h7⟩ := h4
        obtain ⟨hr6, hp6⟩ := fetch32_ok h6
        cases h7
        exact ⟨rfl, by rw [RM.bytes, fin (.mem (.sibDisp32 sib dd)) hm2.symm hr4.symm rfl, hr1, hr3, hr6]; rfl, by simp only [RM.extra]; omega⟩
      · next hm2 =>
        split at h4
        · next hm1 =>
          simp only [bind_ok, Prod.exists] at h4
          obtain ⟨dd, c4, h6, h7⟩ := h4
          obtain ⟨hr6, hp6⟩ := fetch8_ok h6
          cases h7
          exact ⟨rfl, by rw [RM.bytes, fin (.mem (.sibDisp8 sib dd)) hm1.symm hr4.symm rfl, hr1, hr3, hr6]; rfl, by simp only [RM.extra]; omega⟩
        · next hm1 =>
          cases h4
          exact ⟨rfl, by rw [RM.bytes, fin (.mem (.sib sib)) (mod_eq_zero hm hm2 hm1).symm hr4.symm rfl, hr1, hr3]; rfl, by simp only [RM.extra]; omega⟩
    · next hr4 =>
      simp only [bind_ok, Prod.exists, decodeBase] at h
      obtain ⟨m, c2, h4, h5⟩ := h
      cases h5
      split at h4
      · next hm2 =>
        simp only [bind_ok, Prod.exists] at h4
        obtain ⟨dd, c4, h6, h7⟩ := h4
        obtain ⟨hr6, hp6⟩ := fetch32_ok h6
        cases h7
        exact ⟨Reg.ofField_ne_esp hr4, by rw [RM.bytes, fin (.mem (.baseDisp32 _ dd)) hm2.symm (Reg.field_ofField _) rfl, hr1, hr6]; rfl, by simp only [RM.extra]; omega⟩
      · next hm2 =>
        split at h4
        · next hm1 =>
          simp only [bind_ok, Prod.exists] at h4
          obtain ⟨dd, c4, h6, h7⟩ := h4
          obtain ⟨hr6, hp6⟩ := fetch8_ok h6
          cases h7
          exact ⟨Reg.ofField_ne_esp hr4, by rw [RM.bytes, fin (.mem (.baseDisp8 _ dd)) hm1.symm (Reg.field_ofField _) rfl, hr1, hr6]; rfl, by simp only [RM.extra]; omega⟩
        · next hm1 =>
          split at h4
          · next h5 =>
            simp only [bind_ok, Prod.exists] at h4
            obtain ⟨dd, c4, h6, h7⟩ := h4
            obtain ⟨hr6, hp6⟩ := fetch32_ok h6
            cases h7
            exact ⟨rfl, by rw [RM.bytes, fin (.mem (.abs dd)) (mod_eq_zero hm hm2 hm1).symm h5.symm rfl, hr1, hr6]; rfl, by simp only [RM.extra]; omega⟩
          · next h5 =>
            cases h4
            exact ⟨Reg.ofField_base hr4 h5, by rw [RM.bytes, fin (.mem (.base _)) (mod_eq_zero hm hm2 hm1).symm (Reg.field_ofField _) rfl, hr1]; rfl, by simp only [RM.extra]; omega⟩

/-! ## Lengths -/

/-- An instruction has as many bytes as its length says (R71, R84). -/
theorem encode_length (i : Instr) : (encode i).length = i.length := by
  cases i <;> simp [encode, Instr.length] <;> omega

/-- Every instruction has between one and eleven bytes (R84). -/
theorem Instr.length_bounds (i : Instr) : 1 ≤ i.length ∧ i.length ≤ maxLength := by
  cases i <;> simp only [Instr.length, maxLength] <;> first
    | omega
    | (have := RM.extra_le ‹RM›; omega)

end Sys2Proof
end

