-- ==== Sys2Proof/Laws/Memory.lean ====
section
/-! SUPPORT. The laws of memory: a byte reads back what was written to it and no other byte changes,
for every memory; words are their four bytes; and every operation keeps the canonical form. -/

namespace Sys2Proof.Machine

/-! ## Cells -/

theorem cellsGet_filter_other (cs : List Host.Cell) {a b : Nat} (h : b ≠ a) :
    cellsGet (cs.filter (fun c => c.1 != a)) b = cellsGet cs b := by
  induction cs with
  | nil => rfl
  | cons c cs ih =>
    by_cases hc : c.1 = a
    · have hb : c.1 ≠ b := fun hb => h (hb ▸ hc)
      simp [hc, cellsGet, ih, hc ▸ hb]
    · simp [hc, cellsGet, ih]

theorem cellsGet_filter_same (cs : List Host.Cell) (a : Nat) :
    cellsGet (cs.filter (fun c => c.1 != a)) a = unlistedByte := by
  induction cs with
  | nil => rfl
  | cons c cs ih =>
    by_cases hc : c.1 = a <;> simp [hc, cellsGet, ih]

theorem cellsGet_insert_other (cs : List Host.Cell) {a b : Nat} (v : Byte) (h : b ≠ a) :
    cellsGet (cellsInsert a v cs) b = cellsGet cs b := by
  induction cs with
  | nil => simp [cellsInsert, cellsGet, h.symm]
  | cons c cs ih =>
    by_cases hc : c.1 < a
    · simp [cellsInsert, hc, cellsGet, ih]
    · simp [cellsInsert, hc, cellsGet, h.symm]

theorem cellsGet_insert_same (cs : List Host.Cell) (a : Nat) (v : Byte) :
    cellsGet (cellsInsert a v cs) a = v := by
  induction cs with
  | nil => simp [cellsInsert, cellsGet]
  | cons c cs ih =>
    by_cases hc : c.1 < a
    · simp [cellsInsert, hc, cellsGet, ih, Nat.ne_of_lt hc]
    · simp [cellsInsert, hc, cellsGet]

theorem cellsGet_put_same (cs : List Host.Cell) (a : Nat) (v : Byte) :
    cellsGet (cellsPut cs a v) a = v := by
  unfold cellsPut
  split
  · next h => simp [cellsGet_filter_same, h]
  · simp [cellsGet_insert_same]

theorem cellsGet_put_other (cs : List Host.Cell) {a b : Nat} (v : Byte) (h : b ≠ a) :
    cellsGet (cellsPut cs a v) b = cellsGet cs b := by
  unfold cellsPut
  split
  · simp [cellsGet_filter_other _ h]
  · simp [cellsGet_insert_other _ _ h, cellsGet_filter_other _ h]

/-! ## Bytes -/

@[simp] theorem Memory.setByte_size (m : Memory) (a : Nat) (v : Byte) : (m.setByte a v).size = m.size := rfl

@[simp] theorem Memory.byte_setByte_same (m : Memory) (a : Nat) (v : Byte) : (m.setByte a v).byte a = v :=
  cellsGet_put_same ..

theorem Memory.byte_setByte_other (m : Memory) {a b : Nat} (v : Byte) (h : b ≠ a) :
    (m.setByte a v).byte b = m.byte b :=
  cellsGet_put_other _ _ h

@[simp] theorem Memory.setBytes_size (m : Memory) (a : Nat) (bs : List Byte) :
    (m.setBytes a bs).size = m.size := by
  induction bs generalizing m a with
  | nil => rfl
  | cons b bs ih => simp [Memory.setBytes, ih]

/-- Bytes outside the written range are kept. -/
theorem Memory.byte_setBytes_outside (m : Memory) {a x : Nat} {bs : List Byte}
    (h : x < a ∨ a + bs.length ≤ x) : (m.setBytes a bs).byte x = m.byte x := by
  induction bs generalizing m a with
  | nil => rfl
  | cons b bs ih =>
    simp only [List.length_cons] at h
    rw [Memory.setBytes, ih _ (by omega), Memory.byte_setByte_other _ _ (by omega)]

/-- Bytes inside the written range are those written. -/
theorem Memory.byte_setBytes_inside (m : Memory) {a k : Nat} {bs : List Byte} {b : Byte}
    (h : bs[k]? = some b) : (m.setBytes a bs).byte (a + k) = b := by
  induction bs generalizing m a k with
  | nil => simp at h
  | cons c bs ih =>
    cases k with
    | zero =>
      simp only [List.getElem?_cons_zero, Option.some.injEq] at h
      rw [Memory.setBytes, Memory.byte_setBytes_outside _ (by omega)]
      simp [h]
    | succ k =>
      rw [List.getElem?_cons_succ] at h
      rw [Memory.setBytes, show a + (k + 1) = a + 1 + k by omega]
      exact ih _ h

/-! ## Words -/

@[simp] theorem Memory.setWord_size (m : Memory) (a : Nat) (v : Word) : (m.setWord a v).size = m.size :=
  Memory.setBytes_size ..

@[simp] theorem Memory.word_setWord_same (m : Memory) (a : Nat) (v : Word) : (m.setWord a v).word a = v := by
  have h (k : Nat) (b : Byte) (hk : (bytes32 v)[k]? = some b) : (m.setWord a v).byte (a + k) = b :=
    Memory.byte_setBytes_inside m hk
  have h0 : (m.setWord a v).byte a = v.extractLsb' 0 8 := h 0 _ rfl
  rw [Memory.word, h0, h 1 _ rfl, h 2 _ rfl, h 3 _ rfl, word32_bytes]

theorem Memory.byte_setWord_outside (m : Memory) {a x : Nat} (v : Word) (h : x < a ∨ a + 4 ≤ x) :
    (m.setWord a v).byte x = m.byte x :=
  Memory.byte_setBytes_outside m (by simpa using h)

/-! ## The canonical form -/

theorem cellsInsert_mem {a : Nat} {v : Byte} {cs : List Host.Cell} {c : Host.Cell}
    (h : c ∈ cellsInsert a v cs) : c = (a, v) ∨ c ∈ cs := by
  induction cs with
  | nil => simpa [cellsInsert] using h
  | cons d cs ih =>
    by_cases hd : d.1 < a
    · simp only [cellsInsert, hd, if_true, List.mem_cons] at h ⊢
      rcases h with h | h
      · exact .inr (.inl h)
      · exact (ih h).imp_right .inr
    · simpa [cellsInsert, hd] using h

theorem cellsInsert_rising {a : Nat} (v : Byte) {cs : List Host.Cell}
    (h : cs.Pairwise (fun c d => c.1 < d.1)) (ha : ∀ c ∈ cs, c.1 ≠ a) :
    (cellsInsert a v cs).Pairwise (fun c d => c.1 < d.1) := by
  induction cs with
  | nil => simp [cellsInsert]
  | cons d cs ih =>
    obtain ⟨hd, hcs⟩ := List.pairwise_cons.1 h
    by_cases hda : d.1 < a
    · simp only [cellsInsert, hda, if_true]
      refine List.pairwise_cons.2 ⟨fun c hc => ?_, ih hcs fun c hc => ha c (List.mem_cons_of_mem _ hc)⟩
      rcases cellsInsert_mem hc with rfl | hc
      · exact hda
      · exact hd c hc
    · simp only [cellsInsert, hda, if_false]
      have had : a < d.1 := by have := ha d (by simp); omega
      refine List.pairwise_cons.2 ⟨fun c hc => ?_, h⟩
      rcases List.mem_cons.1 hc with rfl | hc
      · exact had
      · exact Nat.lt_trans had (hd c hc)

/-- Writing a byte inside the buffer keeps the canonical form. -/
theorem Memory.setByte_wf {m : Memory} {a : Nat} (v : Byte) (h : m.wf) (ha : a < m.size) :
    (m.setByte a v).wf := by
  obtain ⟨hr, hc⟩ := h
  have hr' : (m.cells.filter (fun c => c.1 != a)).Pairwise (fun c d => c.1 < d.1) := hr.filter _
  simp only [Memory.wf, Memory.setByte, cellsPut]
  split
  · exact ⟨hr', fun c hm => hc c (List.mem_filter.1 hm).1⟩
  · next hv =>
    refine ⟨cellsInsert_rising v hr' fun c hm => by simpa using (List.mem_filter.1 hm).2, fun c hm => ?_⟩
    rcases cellsInsert_mem hm with rfl | hm
    · exact ⟨ha, hv⟩
    · exact hc c (List.mem_filter.1 hm).1

theorem Memory.setBytes_wf {m : Memory} {a : Nat} {bs : List Byte} (h : m.wf)
    (ha : a + bs.length ≤ m.size) : (m.setBytes a bs).wf := by
  induction bs generalizing m a with
  | nil => exact h
  | cons b bs ih =>
    simp only [List.length_cons] at ha
    exact ih (Memory.setByte_wf b h (by omega)) (by simp; omega)

theorem Memory.setWord_wf {m : Memory} {a : Nat} (v : Word) (h : m.wf) (ha : a + 4 ≤ m.size) :
    (m.setWord a v).wf :=
  Memory.setBytes_wf h (by simpa using ha)

theorem Memory.placeCode_wf {m : Memory} {a : Nat} {bs : List Byte} (h : m.wf) : (m.placeCode a bs).wf := by
  induction bs generalizing m a with
  | nil => exact h
  | cons b bs ih =>
    unfold Memory.placeCode
    split
    · next ha => exact ih (Memory.setByte_wf b h ha)
    · exact h

/-- Reset memory is in canonical form. -/
theorem reset_memory_wf : State.reset.mem.wf := by decide

/-! ## The fetch window -/

/-- The `k`-th byte of the window is the byte of memory there. -/
theorem Memory.window_get (m : Memory) {a k n : Nat} (hk : k < n) (ha : a + k < m.size) :
    (m.window a n)[k]? = some (m.byte (a + k)) := by
  induction n generalizing a k with
  | zero => omega
  | succ n ih =>
    have h0 : a < m.size := by omega
    cases k with
    | zero => simp [Memory.window, h0]
    | succ k =>
      simp only [Memory.window, h0, if_true, List.getElem?_cons_succ]
      rw [ih (by omega) (by omega), show a + 1 + k = a + (k + 1) by omega]

/-- The window ends after `n` bytes or at the end of memory, whichever comes first. -/
theorem Memory.window_length (m : Memory) (a n : Nat) : (m.window a n).length = min n (m.size - a) := by
  induction n generalizing a with
  | zero => simp [Memory.window]
  | succ n ih =>
    unfold Memory.window
    split
    · simp only [List.length_cons, ih]; omega
    · simp only [List.length_nil]; omega

end Sys2Proof.Machine
end

