-- ==== Sys2Proof/Laws/State.lean ====
section
/-! SUPPORT. What each field reads after each update of the state, true by unfolding, and reading a
register after writing one. -/

namespace Sys2Proof.Machine

/-! `State.setReg` -/

@[simp] theorem State.setReg_eip (s : State) (r : Reg) (v : Word) : (s.setReg r v).eip = s.eip := rfl
@[simp] theorem State.setReg_eflags (s : State) (r : Reg) (v : Word) : (s.setReg r v).eflags = s.eflags := rfl
@[simp] theorem State.setReg_mem (s : State) (r : Reg) (v : Word) : (s.setReg r v).mem = s.mem := rfl
@[simp] theorem State.setReg_run (s : State) (r : Reg) (v : Word) : (s.setReg r v).run = s.run := rfl
@[simp] theorem State.setReg_input (s : State) (r : Reg) (v : Word) : (s.setReg r v).input = s.input := rfl
@[simp] theorem State.setReg_consumed (s : State) (r : Reg) (v : Word) : (s.setReg r v).consumed = s.consumed := rfl
@[simp] theorem State.setReg_output (s : State) (r : Reg) (v : Word) : (s.setReg r v).output = s.output := rfl
@[simp] theorem State.setReg_regs (s : State) (r : Reg) (v : Word) : (s.setReg r v).regs = s.regs.set r v := rfl

/-! `State.setEip` -/

@[simp] theorem State.setEip_eip (s : State) (v : Word) : (s.setEip v).eip = v := rfl
@[simp] theorem State.setEip_eflags (s : State) (v : Word) : (s.setEip v).eflags = s.eflags := rfl
@[simp] theorem State.setEip_mem (s : State) (v : Word) : (s.setEip v).mem = s.mem := rfl
@[simp] theorem State.setEip_run (s : State) (v : Word) : (s.setEip v).run = s.run := rfl
@[simp] theorem State.setEip_input (s : State) (v : Word) : (s.setEip v).input = s.input := rfl
@[simp] theorem State.setEip_consumed (s : State) (v : Word) : (s.setEip v).consumed = s.consumed := rfl
@[simp] theorem State.setEip_output (s : State) (v : Word) : (s.setEip v).output = s.output := rfl
@[simp] theorem State.setEip_regs (s : State) (v : Word) : (s.setEip v).regs = s.regs := rfl
@[simp] theorem State.setEip_reg (s : State) (v : Word) (q : Reg) : (s.setEip v).reg q = s.reg q := rfl

/-! `State.advanceEip` -/

@[simp] theorem State.advanceEip_eip (s : State) (d : Word) : (s.advanceEip d).eip = s.eip + d := rfl
@[simp] theorem State.advanceEip_eflags (s : State) (d : Word) : (s.advanceEip d).eflags = s.eflags := rfl
@[simp] theorem State.advanceEip_mem (s : State) (d : Word) : (s.advanceEip d).mem = s.mem := rfl
@[simp] theorem State.advanceEip_run (s : State) (d : Word) : (s.advanceEip d).run = s.run := rfl
@[simp] theorem State.advanceEip_input (s : State) (d : Word) : (s.advanceEip d).input = s.input := rfl
@[simp] theorem State.advanceEip_consumed (s : State) (d : Word) : (s.advanceEip d).consumed = s.consumed := rfl
@[simp] theorem State.advanceEip_output (s : State) (d : Word) : (s.advanceEip d).output = s.output := rfl
@[simp] theorem State.advanceEip_regs (s : State) (d : Word) : (s.advanceEip d).regs = s.regs := rfl
@[simp] theorem State.advanceEip_reg (s : State) (d : Word) (q : Reg) : (s.advanceEip d).reg q = s.reg q := rfl

/-! `State.setEflags` -/

@[simp] theorem State.setEflags_eip (s : State) (v : Word) : (s.setEflags v).eip = s.eip := rfl
@[simp] theorem State.setEflags_eflags (s : State) (v : Word) : (s.setEflags v).eflags = v := rfl
@[simp] theorem State.setEflags_mem (s : State) (v : Word) : (s.setEflags v).mem = s.mem := rfl
@[simp] theorem State.setEflags_run (s : State) (v : Word) : (s.setEflags v).run = s.run := rfl
@[simp] theorem State.setEflags_input (s : State) (v : Word) : (s.setEflags v).input = s.input := rfl
@[simp] theorem State.setEflags_consumed (s : State) (v : Word) : (s.setEflags v).consumed = s.consumed := rfl
@[simp] theorem State.setEflags_output (s : State) (v : Word) : (s.setEflags v).output = s.output := rfl
@[simp] theorem State.setEflags_regs (s : State) (v : Word) : (s.setEflags v).regs = s.regs := rfl
@[simp] theorem State.setEflags_reg (s : State) (v : Word) (q : Reg) : (s.setEflags v).reg q = s.reg q := rfl

/-! `State.setRun` -/

@[simp] theorem State.setRun_eip (s : State) (r : RunState) : (s.setRun r).eip = s.eip := rfl
@[simp] theorem State.setRun_eflags (s : State) (r : RunState) : (s.setRun r).eflags = s.eflags := rfl
@[simp] theorem State.setRun_mem (s : State) (r : RunState) : (s.setRun r).mem = s.mem := rfl
@[simp] theorem State.setRun_run (s : State) (r : RunState) : (s.setRun r).run = r := rfl
@[simp] theorem State.setRun_input (s : State) (r : RunState) : (s.setRun r).input = s.input := rfl
@[simp] theorem State.setRun_consumed (s : State) (r : RunState) : (s.setRun r).consumed = s.consumed := rfl
@[simp] theorem State.setRun_output (s : State) (r : RunState) : (s.setRun r).output = s.output := rfl
@[simp] theorem State.setRun_regs (s : State) (r : RunState) : (s.setRun r).regs = s.regs := rfl
@[simp] theorem State.setRun_reg (s : State) (r : RunState) (q : Reg) : (s.setRun r).reg q = s.reg q := rfl

/-! `State.setMem` -/

@[simp] theorem State.setMem_eip (s : State) (m : Memory) : (s.setMem m).eip = s.eip := rfl
@[simp] theorem State.setMem_eflags (s : State) (m : Memory) : (s.setMem m).eflags = s.eflags := rfl
@[simp] theorem State.setMem_mem (s : State) (m : Memory) : (s.setMem m).mem = m := rfl
@[simp] theorem State.setMem_run (s : State) (m : Memory) : (s.setMem m).run = s.run := rfl
@[simp] theorem State.setMem_input (s : State) (m : Memory) : (s.setMem m).input = s.input := rfl
@[simp] theorem State.setMem_consumed (s : State) (m : Memory) : (s.setMem m).consumed = s.consumed := rfl
@[simp] theorem State.setMem_output (s : State) (m : Memory) : (s.setMem m).output = s.output := rfl
@[simp] theorem State.setMem_regs (s : State) (m : Memory) : (s.setMem m).regs = s.regs := rfl
@[simp] theorem State.setMem_reg (s : State) (m : Memory) (q : Reg) : (s.setMem m).reg q = s.reg q := rfl

/-! `State.updateSubFlags` -/

@[simp] theorem State.updateSubFlags_eip (s : State) (a b : Word) : (s.updateSubFlags a b).eip = s.eip := rfl
@[simp] theorem State.updateSubFlags_eflags (s : State) (a b : Word) : (s.updateSubFlags a b).eflags = subFlags a b s.eflags := rfl
@[simp] theorem State.updateSubFlags_mem (s : State) (a b : Word) : (s.updateSubFlags a b).mem = s.mem := rfl
@[simp] theorem State.updateSubFlags_run (s : State) (a b : Word) : (s.updateSubFlags a b).run = s.run := rfl
@[simp] theorem State.updateSubFlags_input (s : State) (a b : Word) : (s.updateSubFlags a b).input = s.input := rfl
@[simp] theorem State.updateSubFlags_consumed (s : State) (a b : Word) : (s.updateSubFlags a b).consumed = s.consumed := rfl
@[simp] theorem State.updateSubFlags_output (s : State) (a b : Word) : (s.updateSubFlags a b).output = s.output := rfl
@[simp] theorem State.updateSubFlags_regs (s : State) (a b : Word) : (s.updateSubFlags a b).regs = s.regs := rfl
@[simp] theorem State.updateSubFlags_reg (s : State) (a b : Word) (q : Reg) : (s.updateSubFlags a b).reg q = s.reg q := rfl

/-! `State.jumpRelative` -/

@[simp] theorem State.jumpRelative_eip (s : State) (len rel : Word) : (s.jumpRelative len rel).eip = s.eip + len + rel := rfl
@[simp] theorem State.jumpRelative_eflags (s : State) (len rel : Word) : (s.jumpRelative len rel).eflags = s.eflags := rfl
@[simp] theorem State.jumpRelative_mem (s : State) (len rel : Word) : (s.jumpRelative len rel).mem = s.mem := rfl
@[simp] theorem State.jumpRelative_run (s : State) (len rel : Word) : (s.jumpRelative len rel).run = s.run := rfl
@[simp] theorem State.jumpRelative_input (s : State) (len rel : Word) : (s.jumpRelative len rel).input = s.input := rfl
@[simp] theorem State.jumpRelative_consumed (s : State) (len rel : Word) : (s.jumpRelative len rel).consumed = s.consumed := rfl
@[simp] theorem State.jumpRelative_output (s : State) (len rel : Word) : (s.jumpRelative len rel).output = s.output := rfl
@[simp] theorem State.jumpRelative_regs (s : State) (len rel : Word) : (s.jumpRelative len rel).regs = s.regs := rfl
@[simp] theorem State.jumpRelative_reg (s : State) (len rel : Word) (q : Reg) : (s.jumpRelative len rel).reg q = s.reg q := rfl

/-! `State.supplyInput` -/

@[simp] theorem State.supplyInput_eip (s : State) (bs : List Byte) : (s.supplyInput bs).eip = s.eip := rfl
@[simp] theorem State.supplyInput_eflags (s : State) (bs : List Byte) : (s.supplyInput bs).eflags = s.eflags := rfl
@[simp] theorem State.supplyInput_mem (s : State) (bs : List Byte) : (s.supplyInput bs).mem = s.mem := rfl
@[simp] theorem State.supplyInput_run (s : State) (bs : List Byte) : (s.supplyInput bs).run = s.run := rfl
@[simp] theorem State.supplyInput_input (s : State) (bs : List Byte) : (s.supplyInput bs).input = s.input ++ bs := rfl
@[simp] theorem State.supplyInput_consumed (s : State) (bs : List Byte) : (s.supplyInput bs).consumed = s.consumed := rfl
@[simp] theorem State.supplyInput_output (s : State) (bs : List Byte) : (s.supplyInput bs).output = s.output := rfl
@[simp] theorem State.supplyInput_regs (s : State) (bs : List Byte) : (s.supplyInput bs).regs = s.regs := rfl
@[simp] theorem State.supplyInput_reg (s : State) (bs : List Byte) (q : Reg) : (s.supplyInput bs).reg q = s.reg q := rfl

/-! Registers -/

@[simp] theorem Regs.get_set_same (g : Regs) (r : Reg) (v : Word) : (g.set r v).get r = v := by
  cases r <;> rfl

theorem Regs.get_set_other (g : Regs) {r q : Reg} (v : Word) (h : q ≠ r) :
    (g.set r v).get q = g.get q := by
  cases r <;> cases q <;> first | rfl | exact absurd rfl h

theorem State.reg_eq (s : State) (r : Reg) : s.reg r = s.regs.get r := rfl

@[simp] theorem State.setReg_reg_same (s : State) (r : Reg) (v : Word) : (s.setReg r v).reg r = v :=
  Regs.get_set_same ..

theorem State.setReg_reg_other (s : State) {r q : Reg} (v : Word) (h : q ≠ r) :
    (s.setReg r v).reg q = s.reg q :=
  Regs.get_set_other _ _ h

/-- One register after a write of another or of the same. -/
theorem State.setReg_reg (s : State) (r q : Reg) (v : Word) :
    (s.setReg r v).reg q = if q = r then v else s.reg q := by
  split
  · next h => subst h; simp
  · next h => exact State.setReg_reg_other s v h

end Sys2Proof.Machine
end

