-- ==== Sys2Proof/Laws/Ops.lean ====
section
/-! SUPPORT. What each shared operation can do, said once: the memory primitives, the stack, the
operands, the ports and the loop's pieces. -/

namespace Sys2Proof.Machine

/-! ## Outcomes -/

@[simp] theorem outcomeOf_ok (s : State) : outcomeOf (.ok s) = .next s := rfl

@[simp] theorem outcomeOf_error (f : Fault) : outcomeOf (.error f) = .fault f := rfl

theorem outcomeOf_next {r : Except Fault State} {t : State} : outcomeOf r = .next t ↔ r = .ok t := by
  cases r <;> simp

theorem outcomeOf_fault {r : Except Fault State} {f : Fault} : outcomeOf r = .fault f ↔ r = .error f := by
  cases r <;> simp

theorem outcomeOf_ne_refused {r : Except Fault State} {q : Refusal} : outcomeOf r ≠ .refused q := by
  cases r <;> simp

/-! ## Memory primitives -/

theorem inBounds_iff (m : Memory) (a n : Nat) : m.inBounds a n = true ↔ a + n ≤ m.size := by
  simp [Memory.inBounds]

theorem memRead32_ok {s : State} {a v : Word} :
    memRead32 s a = .ok v ↔ a.toNat + 4 ≤ s.mem.size ∧ s.mem.word a.toNat = v := by
  unfold memRead32
  by_cases h : a.toNat + 4 ≤ s.mem.size <;> simp [inBounds_iff, h]

theorem memRead32_error {s : State} {a : Word} {f : Fault} :
    memRead32 s a = .error f ↔ s.mem.size < a.toNat + 4 ∧ f = .boundsError s.eip a.toNat 4 := by
  unfold memRead32
  by_cases h : a.toNat + 4 ≤ s.mem.size
  · simp [inBounds_iff, h]
  · simp only [inBounds_iff, h, if_false, Except.error.injEq, Nat.not_le.1 h, true_and]
    exact eq_comm

theorem memWrite32_ok {s t : State} {a v : Word} :
    memWrite32 s a v = .ok t ↔ a.toNat + 4 ≤ s.mem.size ∧ t = s.setMem (s.mem.setWord a.toNat v) := by
  unfold memWrite32
  by_cases h : a.toNat + 4 ≤ s.mem.size
  · simp only [inBounds_iff, h, if_true, Except.ok.injEq, true_and]
    exact eq_comm
  · simp [inBounds_iff, h]

theorem memWrite32_error {s : State} {a v : Word} {f : Fault} :
    memWrite32 s a v = .error f ↔ s.mem.size < a.toNat + 4 ∧ f = .boundsError s.eip a.toNat 4 := by
  unfold memWrite32
  by_cases h : a.toNat + 4 ≤ s.mem.size
  · simp [inBounds_iff, h]
  · simp only [inBounds_iff, h, if_false, Except.error.injEq, Nat.not_le.1 h, true_and]
    exact eq_comm

theorem memRead8_ok {s : State} {a : Word} {b : Byte} :
    memRead8 s a = .ok b ↔ a.toNat + 1 ≤ s.mem.size ∧ s.mem.byte a.toNat = b := by
  unfold memRead8
  by_cases h : a.toNat + 1 ≤ s.mem.size <;> simp [inBounds_iff, h]

theorem memWrite8_ok {s t : State} {a : Word} {b : Byte} :
    memWrite8 s a b = .ok t ↔ a.toNat + 1 ≤ s.mem.size ∧ t = s.setMem (s.mem.setByte a.toNat b) := by
  unfold memWrite8
  by_cases h : a.toNat + 1 ≤ s.mem.size
  · simp only [inBounds_iff, h, if_true, Except.ok.injEq, true_and]
    exact eq_comm
  · simp [inBounds_iff, h]

/-- A four-byte write keeps the canonical form of memory. -/
theorem memWrite32_wf {s t : State} {a v : Word} (h : memWrite32 s a v = .ok t) (hw : s.mem.wf) :
    t.mem.wf := by
  obtain ⟨ha, rfl⟩ := memWrite32_ok.1 h
  exact Memory.setWord_wf v hw ha

/-- A one-byte write keeps the canonical form of memory. -/
theorem memWrite8_wf {s t : State} {a : Word} {b : Byte} (h : memWrite8 s a b = .ok t) (hw : s.mem.wf) :
    t.mem.wf := by
  obtain ⟨ha, rfl⟩ := memWrite8_ok.1 h
  exact Memory.setByte_wf b hw (by omega)

/-- Loading an image keeps the canonical form of memory. -/
theorem loadImage_wf {s t : State} {image : List Byte} {addr : Word} (h : s.loadImage image addr = .ok t)
    (hw : s.mem.wf) : t.mem.wf := by
  unfold State.loadImage at h
  split at h
  · next hb =>
    cases h
    exact Memory.setBytes_wf hw ((inBounds_iff ..).1 hb)
  · cases h

/-- Placing a code word keeps the canonical form of memory. -/
theorem withFetchWord_wf (s : State) (nbits w : Nat) (hw : s.mem.wf) : (s.withFetchWord nbits w).mem.wf :=
  Memory.placeCode_wf hw

/-! ## The stack -/

/-- A push writes its word at the decremented ESP, or the slot does not lie in memory. -/
theorem push32_ok {s t : State} {v : Word} :
    push32 v s = .ok t ↔ (s.reg .esp - 4#32).toNat + 4 ≤ s.mem.size ∧
      t = (s.setReg .esp (s.reg .esp - 4#32)).setMem (s.mem.setWord (s.reg .esp - 4#32).toNat v) := by
  simp [push32, memWrite32_ok]

theorem push32_error {s : State} {v : Word} {f : Fault} :
    push32 v s = .error f ↔ s.mem.size < (s.reg .esp - 4#32).toNat + 4 ∧
      f = .boundsError s.eip (s.reg .esp - 4#32).toNat 4 := by
  simp [push32, memWrite32_error]

/-- A pop reads the word at ESP and increments ESP, or the slot does not lie in memory. -/
theorem pop32_ok {s t : State} {v : Word} :
    pop32 s = .ok (v, t) ↔ (s.reg .esp).toNat + 4 ≤ s.mem.size ∧ s.mem.word (s.reg .esp).toNat = v ∧
      t = s.setReg .esp (s.reg .esp + 4#32) := by
  simp only [pop32, bind_ok, memRead32_ok, Except.ok.injEq, Prod.mk.injEq]
  constructor
  · rintro ⟨a, ⟨h1, rfl⟩, rfl, rfl⟩; exact ⟨h1, rfl, rfl⟩
  · rintro ⟨h1, rfl, rfl⟩; exact ⟨_, ⟨h1, rfl⟩, rfl, rfl⟩

theorem pop32_error {s : State} {f : Fault} :
    pop32 s = .error f ↔ s.mem.size < (s.reg .esp).toNat + 4 ∧
      f = .boundsError s.eip (s.reg .esp).toNat 4 := by
  simp [pop32, bind_error, memRead32_error]

/-! ## Operands -/

theorem effectiveAddress_ok {x : BitVec 3} {m : MemOp} {s : State} {a : Word} :
    effectiveAddress x m s = .ok a ↔ operandAddress m s = some a := by
  unfold effectiveAddress
  cases operandAddress m s <;> simp

theorem effectiveAddress_error {x : BitVec 3} {m : MemOp} {s : State} {f : Fault} :
    effectiveAddress x m s = .error f ↔
      operandAddress m s = none ∧ f = .decodeErrorSib s.eip ((RM.mem m).modrm x) := by
  unfold effectiveAddress
  cases operandAddress m s <;> simp [eq_comm]

/-- Reading a memory operand reads the word at its address. -/
theorem readRM_mem_ok {x : BitVec 3} {m : MemOp} {s : State} {v : Word} :
    readRM x (.mem m) s = .ok v ↔
      ∃ a, operandAddress m s = some a ∧ a.toNat + 4 ≤ s.mem.size ∧ s.mem.word a.toNat = v := by
  simp only [readRM, bind_ok, effectiveAddress_ok, memRead32_ok]

@[simp] theorem readRM_reg (x : BitVec 3) (r : Reg) (s : State) : readRM x (.reg r) s = .ok (s.reg r) := rfl

theorem readRM_mem_error {x : BitVec 3} {m : MemOp} {s : State} {f : Fault} :
    readRM x (.mem m) s = .error f ↔
      operandAddress m s = none ∧ f = .decodeErrorSib s.eip ((RM.mem m).modrm x) ∨
      ∃ a, operandAddress m s = some a ∧ s.mem.size < a.toNat + 4 ∧ f = .boundsError s.eip a.toNat 4 := by
  simp only [readRM, bind_error, effectiveAddress_ok, effectiveAddress_error, memRead32_error]

/-- Writing a memory operand writes the word at its address. -/
theorem writeRM_mem_ok {x : BitVec 3} {m : MemOp} {s t : State} {v : Word} :
    writeRM x (.mem m) v s = .ok t ↔
      ∃ a, operandAddress m s = some a ∧ a.toNat + 4 ≤ s.mem.size ∧
        t = s.setMem (s.mem.setWord a.toNat v) := by
  simp only [writeRM, bind_ok, effectiveAddress_ok, memWrite32_ok]

@[simp] theorem writeRM_reg (x : BitVec 3) (r : Reg) (v : Word) (s : State) :
    writeRM x (.reg r) v s = .ok (s.setReg r v) := rfl

theorem writeRM_mem_error {x : BitVec 3} {m : MemOp} {s : State} {v : Word} {f : Fault} :
    writeRM x (.mem m) v s = .error f ↔
      operandAddress m s = none ∧ f = .decodeErrorSib s.eip ((RM.mem m).modrm x) ∨
      ∃ a, operandAddress m s = some a ∧ s.mem.size < a.toNat + 4 ∧ f = .boundsError s.eip a.toNat 4 := by
  simp only [writeRM, bind_error, effectiveAddress_ok, effectiveAddress_error, memWrite32_error]

/-- A write to an operand sets a register or writes four bytes inside memory, and does nothing else. -/
theorem writeRM_cases {x : BitVec 3} {rm : RM} {s t : State} {v : Word} (h : writeRM x rm v s = .ok t) :
    (∃ r, rm = .reg r ∧ t = s.setReg r v) ∨
    ∃ m a, rm = .mem m ∧ operandAddress m s = some a ∧ a.toNat + 4 ≤ s.mem.size ∧
      t = s.setMem (s.mem.setWord a.toNat v) := by
  cases rm with
  | reg r => exact .inl ⟨r, rfl, by simpa [eq_comm] using h⟩
  | mem m =>
    obtain ⟨a, ha, hb, ht⟩ := writeRM_mem_ok.1 h
    exact .inr ⟨m, a, rfl, ha, hb, ht⟩

/-- The address of an operand depends on the registers only. -/
theorem operandAddress_congr {s t : State} (m : MemOp) (h : t.regs = s.regs) :
    operandAddress m t = operandAddress m s := by
  cases m <;> simp [operandAddress, State.reg, h]

/-! ## Widening -/

theorem widenImm8_sign (b : Byte) : widenImm8 .sign b = b.signExtend 32 := by
  cases h : b.msb
  · simp [widenImm8, h, zext32, BitVec.signExtend_eq_setWidth_of_msb_false]
  · simp [widenImm8, h, sext32]

theorem widenImm8_zero (b : Byte) : widenImm8 .zero b = b.setWidth 32 := by
  simp [widenImm8, zext32]

/-! ## The ports -/

/-- A port read that answers: the live port gives the next input byte, any other port gives 0. -/
theorem portIn_some {p : BitVec 16} {s t : State} {b : Byte} :
    portIn p s = some (b, t) ↔
      p = livePort ∧ s.input[s.consumed]? = some b ∧ t = { s with consumed := s.consumed + 1 } ∨
      p ≠ livePort ∧ b = 0#8 ∧ t = s := by
  unfold portIn
  by_cases hp : p = livePort
  · cases hi : s.input[s.consumed]? with
    | none => simp [hp]
    | some c =>
      simp only [hp, if_true, Option.some.injEq, Prod.mk.injEq, true_and, ne_eq, not_true_eq_false,
        false_and, or_false]
      exact and_congr_right fun _ => eq_comm
  · simp only [hp, if_false, Option.some.injEq, Prod.mk.injEq, false_and, false_or, ne_eq,
      not_false_eq_true, true_and]
    exact and_congr eq_comm eq_comm

/-- A port read blocks exactly on the live port with no byte left. -/
theorem portIn_none {p : BitVec 16} {s : State} :
    portIn p s = none ↔ p = livePort ∧ s.input.length ≤ s.consumed := by
  unfold portIn
  by_cases hp : p = livePort
  · cases hi : s.input[s.consumed]? with
    | none => simp [hp, List.getElem?_eq_none_iff.1 hi]
    | some b =>
      obtain ⟨hlt, -⟩ := List.getElem?_eq_some_iff.1 hi
      simp [hp, hlt]
  · simp [hp]

theorem portOut_live (b : Byte) (s : State) : portOut livePort b s = { s with output := s.output ++ [b] } := by
  simp [portOut]

theorem portOut_other {p : BitVec 16} (b : Byte) (s : State) (h : p ≠ livePort) : portOut p b s = s := by
  simp [portOut, h]

/-! ## The loop -/

@[simp] theorem haltTest_next (s : State) :
    haltTest (.next s) = .next (if s.eip = 0#32 then s.setRun .halted else s) := rfl

@[simp] theorem haltTest_fault (f : Fault) : haltTest (.fault f) = .fault f := rfl

@[simp] theorem haltTest_refused (r : Refusal) : haltTest (.refused r) = .refused r := rfl

/-- A step that answers a next state either ran the decoded instruction, left the loop at the end of
memory, or found the run already over. -/
theorem step_next_cases {s t : State} (h : step s = .next t) :
    (s.run = .running ∧ s.eip.toNat < s.mem.size ∧ ∃ i c u, decode (fetchWindow s) = .ok (i, c) ∧
      exec i s = .next u ∧ t = if u.eip = 0#32 then u.setRun .halted else u) ∨
    (s.run = .running ∧ s.mem.size ≤ s.eip.toNat ∧ t = s.setRun .exited) ∨
    (s.run ≠ .running ∧ t = s) := by
  unfold step at h
  cases hr : s.run with
  | running =>
    simp only [hr, eipInMemory, decide_eq_true_eq] at h
    split at h
    · next hb =>
      cases hd : decode (fetchWindow s) with
      | ok p =>
        simp only [hd] at h
        cases he : exec p.1 s with
        | next u =>
          rw [he, haltTest_next] at h
          exact .inl ⟨rfl, hb, p.1, p.2, u, by simp, he, by injection h with h; exact h.symm⟩
        | fault f => simp [he] at h
        | refused r => simp [he] at h
      | error e => simp [hd] at h
    · next hb => exact .inr (.inl ⟨rfl, Nat.not_lt.1 hb, by injection h with h; exact h.symm⟩)
  | halted => simp only [hr] at h; exact .inr (.inr ⟨by simp, by injection h with h; exact h.symm⟩)
  | exited => simp only [hr] at h; exact .inr (.inr ⟨by simp, by injection h with h; exact h.symm⟩)

/-- A step that is fatal met a rejected decoding or a fault of the decoded instruction. -/
theorem step_fault_cases {s : State} {f : Fault} (h : step s = .fault f) :
    s.run = .running ∧ s.eip.toNat < s.mem.size ∧
      ((∃ e, decode (fetchWindow s) = .error e ∧ f = decodeFault s e) ∨
       ∃ i c, decode (fetchWindow s) = .ok (i, c) ∧ exec i s = .fault f) := by
  unfold step at h
  cases hr : s.run with
  | running =>
    simp only [hr, eipInMemory, decide_eq_true_eq] at h
    split at h
    · next hb =>
      cases hd : decode (fetchWindow s) with
      | ok p =>
        simp only [hd] at h
        cases he : exec p.1 s with
        | next u => simp [he] at h
        | fault g => rw [he, haltTest_fault] at h; exact ⟨rfl, hb, .inr ⟨p.1, p.2, by simp, by rw [he, h]⟩⟩
        | refused r => simp [he] at h
      | error e => simp only [hd] at h; exact ⟨rfl, hb, .inl ⟨e, rfl, by injection h with h; exact h.symm⟩⟩
    · simp at h
  | halted => simp [hr] at h
  | exited => simp [hr] at h

/-- A step that is refused was refused by the decoded instruction. -/
theorem step_refused_cases {s : State} {r : Refusal} (h : step s = .refused r) :
    s.run = .running ∧ s.eip.toNat < s.mem.size ∧
      ∃ i c, decode (fetchWindow s) = .ok (i, c) ∧ exec i s = .refused r := by
  unfold step at h
  cases hr : s.run with
  | running =>
    simp only [hr, eipInMemory, decide_eq_true_eq] at h
    split at h
    · next hb =>
      cases hd : decode (fetchWindow s) with
      | ok p =>
        simp only [hd] at h
        cases he : exec p.1 s with
        | next u => simp [he] at h
        | fault g => simp [he] at h
        | refused q => rw [he, haltTest_refused] at h; exact ⟨rfl, hb, p.1, p.2, by simp, by rw [he, h]⟩
      | error e => simp [hd] at h
    · simp at h
  | halted => simp [hr] at h
  | exited => simp [hr] at h

/-! ## Frames of the shared operations -/

/-- A write to an operand leaves EIP, EFLAGS, the run state and the host's fields, and the size and the
canonical form of memory. -/
theorem writeRM_frame {x : BitVec 3} {rm : RM} {s t : State} {v : Word} (h : writeRM x rm v s = .ok t) :
    t.eip = s.eip ∧ t.eflags = s.eflags ∧ t.run = s.run ∧ t.input = s.input ∧ t.consumed = s.consumed ∧
      t.output = s.output ∧ t.mem.size = s.mem.size ∧ (s.mem.wf → t.mem.wf) := by
  rcases writeRM_cases h with ⟨r, rfl, rfl⟩ | ⟨m, a, rfl, -, hb, rfl⟩
  · exact ⟨rfl, rfl, rfl, rfl, rfl, rfl, rfl, id⟩
  · exact ⟨rfl, rfl, rfl, rfl, rfl, rfl, by simp, fun hw => Memory.setWord_wf _ hw hb⟩

/-- A push leaves the same. -/
theorem push32_frame {s t : State} {v : Word} (h : push32 v s = .ok t) :
    t.eip = s.eip ∧ t.eflags = s.eflags ∧ t.run = s.run ∧ t.input = s.input ∧ t.consumed = s.consumed ∧
      t.output = s.output ∧ t.mem.size = s.mem.size ∧ (s.mem.wf → t.mem.wf) := by
  obtain ⟨hb, rfl⟩ := push32_ok.1 h
  exact ⟨rfl, rfl, rfl, rfl, rfl, rfl, by simp, fun hw => Memory.setWord_wf _ hw hb⟩

/-- A conditional jump always completes, and changes EIP only. -/
theorem jccRel8_eq (cc : Cond) (rel : Byte) (s : State) : jccRel8 cc rel s =
    .next (s.setEip (if condHolds cc s.eflags then s.eip + 2#32 + sext32 rel else s.eip + 2#32)) := by
  unfold jccRel8
  split <;> rfl

/-- The step of a running core whose bytes decode. -/
theorem step_of_decode {s : State} {i : Instr} {c : Cursor} (hr : s.run = .running)
    (hb : s.eip.toNat < s.mem.size) (hd : decode (fetchWindow s) = .ok (i, c)) :
    step s = haltTest (exec i s) := by
  unfold step
  simp [hr, eipInMemory, hb, hd]

/-- The step of a running core whose bytes do not decode. -/
theorem step_of_decode_error {s : State} {e : DecodeError} (hr : s.run = .running)
    (hb : s.eip.toNat < s.mem.size) (hd : decode (fetchWindow s) = .error e) :
    step s = .fault (decodeFault s e) := by
  unfold step
  simp [hr, eipInMemory, hb, hd]

/-- A terminal state is not left (R33). -/
theorem step_of_terminal {s : State} (h : s.run ≠ .running) : step s = .next s := by
  unfold step
  cases hr : s.run <;> simp_all

end Sys2Proof.Machine
end

