-- ==== Sys2Proof/Laws/Claims.lean ====
section
/-! SUPPORT. How the shared operations answer in the vocabulary of the statements. -/

namespace Sys2Proof.Claims

open Sys2Proof.Machine

theorem storedAt_setWord (m : Memory) (a : Nat) (v : Word) : StoredAt (m.setWord a v) a v := by
  have h (k : Nat) (b : Byte) (hk : (bytes32 v)[k]? = some b) : (m.setWord a v).byte (a + k) = b :=
    Memory.byte_setBytes_inside m hk
  exact ⟨h 0 _ rfl, h 1 _ rfl, h 2 _ rfl, h 3 _ rfl⟩

/-- The bytes of a word lie at an address exactly when the word read there is that word. -/
theorem storedAt_iff (m : Memory) (a : Nat) (v : Word) : StoredAt m a v ↔ m.word a = v := by
  constructor
  · rintro ⟨h0, h1, h2, h3⟩
    rw [Memory.word, h0, h1, h2, h3, word32_bytes]
  · rintro rfl
    have h := bytes32_word32 (m.byte a) (m.byte (a + 1)) (m.byte (a + 2)) (m.byte (a + 3))
    simp only [bytes32, List.cons.injEq, and_true] at h
    obtain ⟨h0, h1, h2, h3⟩ := h
    exact ⟨h0.symm, h1.symm, h2.symm, h3.symm⟩

/-- An accessible operand can be written, and nothing else changes. -/
theorem writeRM_of_accessible {x : BitVec 3} {rm : RM} {s : State} (v : Word) (h : Accessible rm s) :
    ∃ t, writeRM x rm v s = .ok t ∧ OperandWritten rm v s t ∧ t.eip = s.eip ∧ t.eflags = s.eflags ∧
      HostKept s t := by
  cases rm with
  | reg r =>
    exact ⟨_, rfl, ⟨by simp, fun q hq => State.setReg_reg_other _ _ (by simpa using hq), rfl,
      fun _ => rfl⟩, rfl, rfl, rfl, rfl, rfl, rfl⟩
  | mem m =>
    obtain ⟨a, ha, hb⟩ := h
    refine ⟨_, writeRM_mem_ok.2 ⟨a, ha, hb, rfl⟩, ⟨fun _ _ => rfl, ?_⟩, rfl, rfl, rfl, rfl, rfl, rfl⟩
    intro a' ha'
    obtain rfl : a = a' := by simpa [ha] using ha'
    exact ⟨storedAt_setWord _ _ _, by simp, fun b hb => Memory.byte_setWord_outside _ _ hb⟩

/-- An accessible operand that holds `v` is read as `v`. -/
theorem readRM_of_holds {x : BitVec 3} {rm : RM} {s : State} {v : Word} (h : Accessible rm s)
    (hv : OperandHolds rm s v) : readRM x rm s = .ok v := by
  cases rm with
  | reg r => simpa [OperandHolds] using hv
  | mem m =>
    obtain ⟨a, ha, hb⟩ := h
    exact readRM_mem_ok.2 ⟨a, ha, hb, (storedAt_iff _ _ _).1 (hv a ha)⟩

/-- Bytes that lie at EIP stand at the start of the fetch window. -/
theorem fetchWindow_of_bytes {s : State} {bs : List Byte} (hb : BytesAtEip s bs)
    (hl : bs.length ≤ maxLength) : ∃ rest, fetchWindow s = bs ++ rest := by
  obtain ⟨h1, h2⟩ := hb
  have h : (fetchWindow s).take bs.length = bs := by
    apply List.ext_getElem?
    intro k
    rw [List.getElem?_take]
    split
    · next hk =>
      rw [fetchWindow, Memory.window_get _ (by omega) (by omega), List.getElem?_eq_getElem hk]
      exact congrArg some (h2 k _ (List.getElem?_eq_getElem hk))
    · next hk => exact (List.getElem?_eq_none (by omega)).symm
  exact ⟨(fetchWindow s).drop bs.length, by
    conv_lhs => rw [← List.take_append_drop bs.length (fetchWindow s), h]⟩

/-- The other way round: a start of the fetch window lies at EIP. -/
theorem bytes_of_fetchWindow {s : State} {bs rest : List Byte} (h : fetchWindow s = bs ++ rest)
    (hb : s.eip.toNat < s.mem.size) : BytesAtEip s bs := by
  have hl := Memory.window_length s.mem s.eip.toNat maxLength
  rw [← fetchWindow, h, List.length_append] at hl
  refine ⟨by omega, fun k b hk => ?_⟩
  obtain ⟨hlt, -⟩ := List.getElem?_eq_some_iff.1 hk
  have hg := Memory.window_get s.mem (a := s.eip.toNat) (k := k) (n := maxLength) (by omega) (by omega)
  rw [← fetchWindow, h, List.getElem?_append_left hlt, hk] at hg
  exact (Option.some.inj hg).symm

end Sys2Proof.Claims
end

