-- ==== Sys2Proof/Laws/Flags.lean ====
section
/-! SUPPORT. The bits of EFLAGS after a bit is put, and the wide difference as a comparison. -/

namespace Sys2Proof.Machine

/-- Putting bit `i` changes bit `i` only. -/
theorem getLsbD_putBit (f : Word) {i : Nat} (b : Bool) (j : Nat) (hi : i < 32) :
    (putBit f i b).getLsbD j = if j = i then b else f.getLsbD j := by
  have hone : (1#32 <<< i).getLsbD j = decide (j = i) := by
    simp only [BitVec.getLsbD_shiftLeft, BitVec.getLsbD_one]
    by_cases hj : j = i
    · subst hj; simp [hi]
    · by_cases hlt : j < i
      · simp [hlt, hj]
      · simp [hj, show j - i ≠ 0 by omega]
  by_cases hj : j = i
  · subst hj; cases b <;> simp [putBit, hone]
  · cases b
    · by_cases h32 : j < 32
      · rw [putBit, if_neg (by simp), BitVec.getLsbD_and, BitVec.getLsbD_not, hone]
        simp [hj, h32]
      · simp [putBit, hj, BitVec.getLsbD_of_ge _ _ (Nat.not_lt.1 h32)]
    · simp [putBit, hone, hj]

/-- The low 32 bits of the wide difference are the difference. -/
theorem wideDifference_low (a b : Word) : ((wideDifference a b).extractLsb' 0 32 : Word) = a - b := by
  apply BitVec.eq_of_toNat_eq
  have ha := a.isLt
  have hb := b.isLt
  simp only [wideDifference, BitVec.extractLsb'_toNat, BitVec.toNat_sub, BitVec.toNat_setWidth,
    Nat.shiftRight_zero]
  omega

/-- Bit 32 of the wide difference is the borrow (conflict C3). -/
theorem wideDifference_borrow (a b : Word) : (wideDifference a b).getLsbD 32 = decide (a.toNat < b.toNat) := by
  have ha := a.isLt
  have hb := b.isLt
  rw [← BitVec.msb_eq_getLsbD_last (wideDifference a b), BitVec.msb_eq_decide]
  simp only [wideDifference, BitVec.toNat_sub, BitVec.toNat_setWidth]
  congr 1
  simp only [eq_iff_iff]
  omega

end Sys2Proof.Machine
end

