-- ==== Sys2Proof/Laws/PerInstr.lean ====
section
/-! SUPPORT. Facts proved constructor by constructor. The family `Encoding` says of every instruction
that it has as many bytes as `Instr.length` says, between one and eleven, and that its first two bytes,
whatever follows the instruction, match its row of the opcode table (R84, R102). -/

namespace Sys2Proof.Laws.Encoding

/-- What the family says about an instruction. -/
def Statement (i : Instr) : Prop :=
  (encode i).length = i.length ∧ 1 ≤ i.length ∧ i.length ≤ maxLength ∧ i.row ∈ opcodeRows ∧
    ∀ b0 b1 rest more, encode i ++ more = b0 :: b1 :: rest → rowMatches i.row b0 b1 = true

/-- The parts that do not look at the row's bits. -/
theorem of_row {i : Instr} (hrow : i.row ∈ opcodeRows)
    (h : ∀ b0 b1 rest more, encode i ++ more = b0 :: b1 :: rest → rowMatches i.row b0 b1 = true) :
    Statement i :=
  ⟨encode_length i, (Instr.length_bounds i).1, (Instr.length_bounds i).2, hrow, h⟩

/-- A mask that keeps bits of the second byte only under `m`, and all of the first byte under `h`. -/
theorem append_and (b0 b1 h m : Byte) : (b0 ++ b1 : BitVec 16) &&& (h ++ m) = (b0 &&& h) ++ (b1 &&& m) := by
  apply BitVec.eq_of_getLsbD_eq
  intro i hi
  simp only [BitVec.getLsbD_and, BitVec.getLsbD_append]
  split <;> rfl

/-- A row that fixes the opcode byte. -/
theorem opcode_row (op b1 : Byte) {row : BitVec 16} (h : row = op ++ 0#8) :
    rowMatches (row, 0xFF00#16) op b1 = true := by
  subst h
  simp only [rowMatches, show (0xFF00#16 : BitVec 16) = 0xFF#8 ++ 0#8 from rfl, append_and]
  rw [show (0xFF#8 : Byte) = BitVec.allOnes 8 from rfl, BitVec.and_allOnes]
  simp

/-- A row that fixes the opcode byte and the `reg` field of the ModR/M byte. -/
theorem group_row (op : Byte) (x : BitVec 3) (rm : RM) {row : BitVec 16}
    (h : row = op ++ (0#2 ++ x ++ 0#3 : Byte)) : rowMatches (row, 0xFF38#16) op (rm.modrm x) = true := by
  subst h
  have hm : ∀ (a : BitVec 2) (x f : BitVec 3),
      (a ++ x ++ f : Byte) &&& 0x38#8 = (0#2 ++ x ++ 0#3 : Byte) := by decide
  simp only [rowMatches, show (0xFF38#16 : BitVec 16) = 0xFF#8 ++ 0x38#8 from rfl, append_and, RM.modrm, hm]
  rw [show (0xFF#8 : Byte) = BitVec.allOnes 8 from rfl, BitVec.and_allOnes]
  simp

/-- A row that fixes the upper five bits of the opcode byte. -/
theorem plusR_row (family : BitVec 5) (r : Reg) (b1 : Byte) {row : BitVec 16}
    (h : row = (family ++ 0#3 : Byte) ++ 0#8) : rowMatches (row, 0xF800#16) (plusR family r) b1 = true := by
  subst h
  have hm : ∀ (a : BitVec 5) (f : BitVec 3), (a ++ f : Byte) &&& 0xF8#8 = (a ++ 0#3 : Byte) := by decide
  simp only [rowMatches, show (0xF800#16 : BitVec 16) = 0xF8#8 ++ 0#8 from rfl, append_and, plusR, hm]
  simp

theorem movRImm32 (r : Reg) (imm : Word) : Statement (.movRImm32 r imm) :=
  of_row (by simp only [Instr.row]; decide) fun b0 b1 rest more h => by
    obtain ⟨rfl, -⟩ := List.cons.inj h
    exact plusR_row 0b10111#5 r b1 rfl

theorem movRmR (rm : RM) (r : Reg) : Statement (.movRmR rm r) :=
  of_row (by simp only [Instr.row]; decide) fun b0 b1 rest more h => by
    obtain ⟨rfl, -⟩ := List.cons.inj h
    exact opcode_row _ b1 rfl

theorem movRRm (r : Reg) (rm : RM) : Statement (.movRRm r rm) :=
  of_row (by simp only [Instr.row]; decide) fun b0 b1 rest more h => by
    obtain ⟨rfl, -⟩ := List.cons.inj h
    exact opcode_row _ b1 rfl

theorem movRmImm32 (rm : RM) (imm : Word) : Statement (.movRmImm32 rm imm) :=
  of_row (by simp only [Instr.row]; decide) fun b0 b1 rest more h => by
    obtain ⟨rfl, h'⟩ := List.cons.inj h
    obtain ⟨rfl, -⟩ := List.cons.inj h'
    exact group_row 0xC7#8 0#3 rm rfl

theorem addRmR (rm : RM) (r : Reg) : Statement (.addRmR rm r) :=
  of_row (by simp only [Instr.row]; decide) fun b0 b1 rest more h => by
    obtain ⟨rfl, -⟩ := List.cons.inj h
    exact opcode_row _ b1 rfl

theorem addRmImm8 (rm : RM) (imm : Byte) : Statement (.addRmImm8 rm imm) :=
  of_row (by simp only [Instr.row]; decide) fun b0 b1 rest more h => by
    obtain ⟨rfl, h'⟩ := List.cons.inj h
    obtain ⟨rfl, -⟩ := List.cons.inj h'
    exact group_row 0x83#8 0#3 rm rfl

theorem subRmImm8 (rm : RM) (imm : Byte) : Statement (.subRmImm8 rm imm) :=
  of_row (by simp only [Instr.row]; decide) fun b0 b1 rest more h => by
    obtain ⟨rfl, h'⟩ := List.cons.inj h
    obtain ⟨rfl, -⟩ := List.cons.inj h'
    exact group_row 0x83#8 5#3 rm rfl

theorem cmpRmImm8 (rm : RM) (imm : Byte) : Statement (.cmpRmImm8 rm imm) :=
  of_row (by simp only [Instr.row]; decide) fun b0 b1 rest more h => by
    obtain ⟨rfl, h'⟩ := List.cons.inj h
    obtain ⟨rfl, -⟩ := List.cons.inj h'
    exact group_row 0x83#8 7#3 rm rfl

theorem incRm (rm : RM) : Statement (.incRm rm) :=
  of_row (by simp only [Instr.row]; decide) fun b0 b1 rest more h => by
    obtain ⟨rfl, h'⟩ := List.cons.inj h
    obtain ⟨rfl, -⟩ := List.cons.inj h'
    exact group_row 0xFF#8 0#3 rm rfl

theorem pushR (r : Reg) : Statement (.pushR r) :=
  of_row (by simp only [Instr.row]; decide) fun b0 b1 rest more h => by
    obtain ⟨rfl, -⟩ := List.cons.inj h
    exact plusR_row 0b01010#5 r b1 rfl

theorem pushImm32 (imm : Word) : Statement (.pushImm32 imm) :=
  of_row (by simp only [Instr.row]; decide) fun b0 b1 rest more h => by
    obtain ⟨rfl, -⟩ := List.cons.inj h
    exact opcode_row _ b1 rfl

theorem pushImm8 (imm : Byte) : Statement (.pushImm8 imm) :=
  of_row (by simp only [Instr.row]; decide) fun b0 b1 rest more h => by
    obtain ⟨rfl, -⟩ := List.cons.inj h
    exact opcode_row _ b1 rfl

theorem popR (r : Reg) : Statement (.popR r) :=
  of_row (by simp only [Instr.row]; decide) fun b0 b1 rest more h => by
    obtain ⟨rfl, -⟩ := List.cons.inj h
    exact plusR_row 0b01011#5 r b1 rfl

theorem leave : Statement .leave :=
  of_row (by simp only [Instr.row]; decide) fun b0 b1 rest more h => by
    obtain ⟨rfl, -⟩ := List.cons.inj h
    exact opcode_row _ b1 rfl

theorem jmpRel8 (rel : Byte) : Statement (.jmpRel8 rel) :=
  of_row (by simp only [Instr.row]; decide) fun b0 b1 rest more h => by
    obtain ⟨rfl, -⟩ := List.cons.inj h
    exact opcode_row _ b1 rfl

theorem jmpRel32 (rel : Word) : Statement (.jmpRel32 rel) :=
  of_row (by simp only [Instr.row]; decide) fun b0 b1 rest more h => by
    obtain ⟨rfl, -⟩ := List.cons.inj h
    exact opcode_row _ b1 rfl

theorem jo (rel : Byte) : Statement (.jo rel) :=
  of_row (by simp only [Instr.row]; decide) fun b0 b1 rest more h => by
    obtain ⟨rfl, -⟩ := List.cons.inj h
    exact opcode_row _ b1 rfl

theorem jno (rel : Byte) : Statement (.jno rel) :=
  of_row (by simp only [Instr.row]; decide) fun b0 b1 rest more h => by
    obtain ⟨rfl, -⟩ := List.cons.inj h
    exact opcode_row _ b1 rfl

theorem jc (rel : Byte) : Statement (.jc rel) :=
  of_row (by simp only [Instr.row]; decide) fun b0 b1 rest more h => by
    obtain ⟨rfl, -⟩ := List.cons.inj h
    exact opcode_row _ b1 rfl

theorem jnc (rel : Byte) : Statement (.jnc rel) :=
  of_row (by simp only [Instr.row]; decide) fun b0 b1 rest more h => by
    obtain ⟨rfl, -⟩ := List.cons.inj h
    exact opcode_row _ b1 rfl

theorem jz (rel : Byte) : Statement (.jz rel) :=
  of_row (by simp only [Instr.row]; decide) fun b0 b1 rest more h => by
    obtain ⟨rfl, -⟩ := List.cons.inj h
    exact opcode_row _ b1 rfl

theorem jnz (rel : Byte) : Statement (.jnz rel) :=
  of_row (by simp only [Instr.row]; decide) fun b0 b1 rest more h => by
    obtain ⟨rfl, -⟩ := List.cons.inj h
    exact opcode_row _ b1 rfl

theorem js (rel : Byte) : Statement (.js rel) :=
  of_row (by simp only [Instr.row]; decide) fun b0 b1 rest more h => by
    obtain ⟨rfl, -⟩ := List.cons.inj h
    exact opcode_row _ b1 rfl

theorem jns (rel : Byte) : Statement (.jns rel) :=
  of_row (by simp only [Instr.row]; decide) fun b0 b1 rest more h => by
    obtain ⟨rfl, -⟩ := List.cons.inj h
    exact opcode_row _ b1 rfl

theorem jl (rel : Byte) : Statement (.jl rel) :=
  of_row (by simp only [Instr.row]; decide) fun b0 b1 rest more h => by
    obtain ⟨rfl, -⟩ := List.cons.inj h
    exact opcode_row _ b1 rfl

theorem jle (rel : Byte) : Statement (.jle rel) :=
  of_row (by simp only [Instr.row]; decide) fun b0 b1 rest more h => by
    obtain ⟨rfl, -⟩ := List.cons.inj h
    exact opcode_row _ b1 rfl

theorem callRel32 (rel : Word) : Statement (.callRel32 rel) :=
  of_row (by simp only [Instr.row]; decide) fun b0 b1 rest more h => by
    obtain ⟨rfl, -⟩ := List.cons.inj h
    exact opcode_row _ b1 rfl

theorem ret : Statement .ret :=
  of_row (by simp only [Instr.row]; decide) fun b0 b1 rest more h => by
    obtain ⟨rfl, -⟩ := List.cons.inj h
    exact opcode_row _ b1 rfl

theorem inAlDx : Statement .inAlDx :=
  of_row (by simp only [Instr.row]; decide) fun b0 b1 rest more h => by
    obtain ⟨rfl, -⟩ := List.cons.inj h
    exact opcode_row _ b1 rfl

theorem outDxAl : Statement .outDxAl :=
  of_row (by simp only [Instr.row]; decide) fun b0 b1 rest more h => by
    obtain ⟨rfl, -⟩ := List.cons.inj h
    exact opcode_row _ b1 rfl

end Sys2Proof.Laws.Encoding
end

