-- ==== Sys2Proof/Tests/Slice0.lean ====
section
/-! SUPPORT. The model's own tests. Every expected value is the spec's: the words are written out from
30_encoding.md and the results are those of 95_test_vectors.md. After them, one witness for every
obligation with hypotheses: a state and operands that meet the hypotheses together. -/

open Sys2Proof Sys2Proof.Machine Sys2Proof.Claims Host.Outcome

namespace Sys2Proof.Tests

/-! ## Helpers -/

/-- The reset state with `image` at 0x7C00, the common premises of 95_test_vectors.md. -/
def launch (image : List Byte) : State := State.reset.setMem (State.reset.mem.setBytes 0x7C00 image)

/-- A word of memory set beforehand. -/
def poke (s : State) (a : Nat) (v : Word) : State := s.setMem (s.mem.setWord a v)

/-- The step answers a next state that `p` accepts. -/
def goes (s : State) (p : State → Bool) : Bool :=
  match step s with
  | .next t => p t
  | .fault _ => false
  | .refused _ => false

/-- The step is fatal with `f`. -/
def fails (s : State) (f : Fault) : Bool :=
  match step s with
  | .next _ => false
  | .fault g => g == f
  | .refused _ => false

/-- The step blocks. -/
def blocks (s : State) : Bool :=
  match step s with
  | .next _ => false
  | .fault _ => false
  | .refused r => r == .blockedOnInput

/-- The instruction answers a next state that `p` accepts. -/
def execGoes (i : Instr) (s : State) (p : State → Bool) : Bool :=
  match exec i s with
  | .next t => p t
  | .fault _ => false
  | .refused _ => false

theorem goes_next {s : State} {p : State → Bool} (h : goes s p = true) : ∃ t, step s = next t ∧ p t = true := by
  unfold goes at h
  split at h
  · next t ht => exact ⟨t, ht, h⟩
  · cases h
  · cases h

theorem fails_fault {s : State} {f : Fault} (h : fails s f = true) : step s = fault f := by
  unfold fails at h
  split at h
  · cases h
  · next g hg => rw [hg, beq_iff_eq.1 h]
  · cases h

theorem blocks_refused {s : State} (h : blocks s = true) : step s = refused .blockedOnInput := by
  unfold blocks at h
  split at h
  · cases h
  · cases h
  · next r hr => rw [hr, beq_iff_eq.1 h]

theorem execGoes_next {i : Instr} {s : State} {p : State → Bool} (h : execGoes i s p = true) :
    ∃ t, exec i s = next t ∧ p t = true := by
  unfold execGoes at h
  split at h
  · next t ht => exact ⟨t, ht, h⟩
  · cases h
  · cases h

/-- Bytes at the start of the fetch window lie at EIP. -/
theorem bytesAtEip_of {s : State} {bs : List Byte} (h : (fetchWindow s).take bs.length = bs)
    (hb : s.eip.toNat < s.mem.size) : BytesAtEip s bs := by
  refine bytes_of_fetchWindow (rest := (fetchWindow s).drop bs.length) ?_ hb
  conv_lhs => rw [← List.take_append_drop bs.length (fetchWindow s), h]

/-! ## Well-formedness: one ill-formed term for each check -/

theorem test_wf_refuses_esp_base : (Instr.movRRm .eax (.mem (.base .esp))).wf = false := by decide
theorem test_wf_refuses_ebp_base : (Instr.addRmR (.mem (.base .ebp)) .eax).wf = false := by decide
theorem test_wf_refuses_esp_disp8 : (Instr.cmpRmImm8 (.mem (.baseDisp8 .esp 0x08#8)) 0x00#8).wf = false := by decide
theorem test_wf_refuses_esp_disp32 : (Instr.incRm (.mem (.baseDisp32 .esp 0x100#32))).wf = false := by decide
theorem test_wf_takes_ebp_disp8 : (Instr.movRRm .eax (.mem (.baseDisp8 .ebp 0xF8#8))).wf = true := by decide
theorem test_wf_takes_esp_register : (Instr.movRRm .esp (.reg .esp)).wf = true := by decide

/-! ## Decoding: a word of every constructor, written out from the encodings of 30_encoding.md -/

theorem test_decode_mov_r_imm32 : decode [0xBB#8, 0x78#8, 0x56#8, 0x34#8, 0x12#8] = .ok (.movRImm32 .ebx 0x12345678#32, ⟨5, []⟩) := by decide
theorem test_decode_mov_rm_r : decode [0x89#8, 0x45#8, 0xFC#8] = .ok (.movRmR (.mem (.baseDisp8 .ebp 0xFC#8)) .eax, ⟨3, []⟩) := by decide
theorem test_decode_mov_r_rm : decode [0x8B#8, 0xC8#8] = .ok (.movRRm .ecx (.reg .eax), ⟨2, []⟩) := by decide
theorem test_decode_mov_rm_imm32 : decode [0xC7#8, 0x05#8, 0x00#8, 0x80#8, 0x00#8, 0x00#8, 0x78#8, 0x56#8, 0x34#8, 0x12#8] = .ok (.movRmImm32 (.mem (.abs 0x8000#32)) 0x12345678#32, ⟨10, []⟩) := by decide
theorem test_decode_add_rm_r : decode [0x01#8, 0xC8#8] = .ok (.addRmR (.reg .eax) .ecx, ⟨2, []⟩) := by decide
theorem test_decode_add_rm_imm8 : decode [0x83#8, 0xC4#8, 0x04#8] = .ok (.addRmImm8 (.reg .esp) 0x04#8, ⟨3, []⟩) := by decide
theorem test_decode_sub_rm_imm8 : decode [0x83#8, 0x6D#8, 0xFC#8, 0x01#8] = .ok (.subRmImm8 (.mem (.baseDisp8 .ebp 0xFC#8)) 0x01#8, ⟨4, []⟩) := by decide
theorem test_decode_cmp_rm_imm8 : decode [0x83#8, 0x3D#8, 0x00#8, 0x80#8, 0x00#8, 0x00#8, 0x03#8] = .ok (.cmpRmImm8 (.mem (.abs 0x8000#32)) 0x03#8, ⟨7, []⟩) := by decide
theorem test_decode_inc_rm : decode [0xFF#8, 0xC0#8] = .ok (.incRm (.reg .eax), ⟨2, []⟩) := by decide
theorem test_decode_push_r : decode [0x55#8] = .ok (.pushR .ebp, ⟨1, []⟩) := by decide
theorem test_decode_push_imm32 : decode [0x68#8, 0x78#8, 0x56#8, 0x34#8, 0x12#8] = .ok (.pushImm32 0x12345678#32, ⟨5, []⟩) := by decide
theorem test_decode_push_imm8 : decode [0x6A#8, 0x07#8] = .ok (.pushImm8 0x07#8, ⟨2, []⟩) := by decide
theorem test_decode_pop_r : decode [0x5C#8] = .ok (.popR .esp, ⟨1, []⟩) := by decide
theorem test_decode_leave : decode [0xC9#8] = .ok (.leave, ⟨1, []⟩) := by decide
theorem test_decode_jmp_rel8 : decode [0xEB#8, 0xFE#8] = .ok (.jmpRel8 0xFE#8, ⟨2, []⟩) := by decide
theorem test_decode_jmp_rel32 : decode [0xE9#8, 0xF6#8, 0x83#8, 0xFF#8, 0xFF#8] = .ok (.jmpRel32 0xFFFF83F6#32, ⟨5, []⟩) := by decide
theorem test_decode_jo : decode [0x70#8, 0xF9#8] = .ok (.jo 0xF9#8, ⟨2, []⟩) := by decide
theorem test_decode_jno : decode [0x71#8, 0xF9#8] = .ok (.jno 0xF9#8, ⟨2, []⟩) := by decide
theorem test_decode_jc : decode [0x72#8, 0xF9#8] = .ok (.jc 0xF9#8, ⟨2, []⟩) := by decide
theorem test_decode_jnc : decode [0x73#8, 0xF9#8] = .ok (.jnc 0xF9#8, ⟨2, []⟩) := by decide
theorem test_decode_jz : decode [0x74#8, 0xF9#8] = .ok (.jz 0xF9#8, ⟨2, []⟩) := by decide
theorem test_decode_jnz : decode [0x75#8, 0xF9#8] = .ok (.jnz 0xF9#8, ⟨2, []⟩) := by decide
theorem test_decode_js : decode [0x78#8, 0xF9#8] = .ok (.js 0xF9#8, ⟨2, []⟩) := by decide
theorem test_decode_jns : decode [0x79#8, 0xF9#8] = .ok (.jns 0xF9#8, ⟨2, []⟩) := by decide
theorem test_decode_jl : decode [0x7C#8, 0xF9#8] = .ok (.jl 0xF9#8, ⟨2, []⟩) := by decide
theorem test_decode_jle : decode [0x7E#8, 0xF9#8] = .ok (.jle 0xF9#8, ⟨2, []⟩) := by decide
theorem test_decode_call_rel32 : decode [0xE8#8, 0x0E#8, 0x00#8, 0x00#8, 0x00#8] = .ok (.callRel32 0x0E#32, ⟨5, []⟩) := by decide
theorem test_decode_ret : decode [0xC3#8] = .ok (.ret, ⟨1, []⟩) := by decide
theorem test_decode_in_al_dx : decode [0xEC#8] = .ok (.inAlDx, ⟨1, []⟩) := by decide
theorem test_decode_out_dx_al : decode [0xEE#8] = .ok (.outDxAl, ⟨1, []⟩) := by decide

theorem test_decode_longest :
    decode [0xC7#8, 0x84#8, 0x24#8, 0x00#8, 0x00#8, 0x00#8, 0x00#8, 0x01#8, 0x00#8, 0x00#8, 0x00#8] =
      .ok (.movRmImm32 (.mem (.sibDisp32 0x24#8 0x00#32)) 0x01#32, ⟨11, []⟩) := by decide
theorem test_decode_base : decode [0x8B#8, 0x00#8] = .ok (.movRRm .eax (.mem (.base .eax)), ⟨2, []⟩) := by decide
theorem test_decode_disp32 : decode [0x8B#8, 0x85#8, 0x00#8, 0x01#8, 0x00#8, 0x00#8] =
    .ok (.movRRm .eax (.mem (.baseDisp32 .ebp 0x100#32)), ⟨6, []⟩) := by decide
theorem test_decode_no_prefix : decode [0x66#8, 0xB8#8, 0x01#8, 0x00#8] = .error (.unimplementedOpcode 0x66#8) := by decide
theorem test_decode_group_first : decode [0x83#8, 0xCC#8] = .error (.unimplementedExtension 0x83#8 1#3) := by decide
theorem test_decode_cut_short : decode [0xB8#8, 0x01#8, 0x00#8] = .error (.truncated 1 4) := by decide
theorem test_rows_disjoint :
    opcodeRows.Pairwise (fun r q => (r.1 ^^^ q.1) &&& r.2 &&& q.2 ≠ 0#16) := by decide
theorem test_table_word : decodeTableWord 16 0x8328 = some (.subRmImm8 (.mem (.base .eax)) 0x00#8) := by decide
theorem test_table_word_runs : goes (State.reset.withFetchWord 16 0xB800) (fun t => t.eip == 0x7C05#32) = true := by decide

/-! ## One step: the vectors of 95_test_vectors.md -/

theorem test_mov_r_imm32_esp :
    goes (launch [0xBC#8, 0x00#8, 0x01#8, 0x00#8, 0x00#8])
      (fun t => t.reg .esp == 0x100#32 && t.eip == 0x7C05#32) = true := by decide
theorem test_mov_rm_r_little_endian :
    goes (((launch [0x89#8, 0x45#8, 0xFC#8] |>.setReg .ebp 0x7C00#32 |>.setReg .eax 0xAABBCCDD#32)))
      (fun t => t.mem.byte 0x7BFC == 0xDD#8 && t.mem.byte 0x7BFF == 0xAA#8 && t.eip == 0x7C03#32) = true := by decide
theorem test_mov_r_rm_negative_disp :
    goes ((poke ((launch [0x8B#8, 0x45#8, 0xF8#8] |>.setReg .ebp 0x7C00#32)) 0x7BF8 9#32))
      (fun t => t.reg .eax == 9#32 && t.eip == 0x7C03#32) = true := by decide
theorem test_mov_r_rm_address_wraps :
    goes (((launch [0x8B#8, 0x40#8, 0x01#8] |>.setReg .eax 0xFFFFFFFF#32)))
      (fun t => t.reg .eax == 0#32) = true := by decide
theorem test_mov_rm_imm32_memory :
    goes (launch [0xC7#8, 0x05#8, 0x00#8, 0x80#8, 0x00#8, 0x00#8, 0x78#8, 0x56#8, 0x34#8, 0x12#8])
      (fun t => t.mem.word 0x8000 == 0x12345678#32 && t.eip == 0x7C0A#32) = true := by decide
theorem test_add_wraps_without_flags :
    goes ((((launch [0x01#8, 0xC8#8] |>.setReg .eax 0xFFFFFFFF#32 |>.setReg .ecx 0x1#32)).setEflags 0x081#32))
      (fun t => t.reg .eax == 0#32 && t.eflags == 0x081#32) = true := by decide
theorem test_add_imm8_is_signed :
    goes (((launch [0x83#8, 0xC0#8, 0xFF#8] |>.setReg .eax 0x5#32)))
      (fun t => t.reg .eax == 4#32 && t.eflags == 0#32) = true := by decide
theorem test_sub_borrows :
    goes ((launch [0x83#8, 0xE8#8, 0x01#8]))
      (fun t => t.reg .eax == 0xFFFFFFFF#32 && t.eflags == 0x081#32) = true := by decide
theorem test_sub_memory_overflows :
    goes ((poke ((launch [0x83#8, 0x6D#8, 0xFC#8, 0x01#8] |>.setReg .ebp 0x7C00#32)) 0x7BFC 0x80000000#32))
      (fun t => t.mem.word 0x7BFC == 0x7FFFFFFF#32 && t.eflags == 0x800#32) = true := by decide
theorem test_cmp_keeps_operand :
    goes (((launch [0x83#8, 0xF8#8, 0x05#8] |>.setReg .eax 0x3#32)))
      (fun t => t.reg .eax == 3#32 && t.eflags == 0x081#32) = true := by decide
theorem test_inc_without_flags :
    goes ((((launch [0xFF#8, 0xC0#8] |>.setReg .eax 0xFFFFFFFF#32)).setEflags 0x040#32))
      (fun t => t.reg .eax == 0#32 && t.eflags == 0x040#32) = true := by decide
theorem test_push_esp_old_value :
    goes (launch [0x54#8])
      (fun t => t.reg .esp == 0x7BFC#32 && t.mem.word 0x7BFC == 0x7C00#32) = true := by decide
theorem test_push_imm32 :
    goes (launch [0x68#8, 0x78#8, 0x56#8, 0x34#8, 0x12#8])
      (fun t => t.reg .esp == 0x7BFC#32 && t.mem.word 0x7BFC == 0x12345678#32) = true := by decide
theorem test_push_imm8_small :
    goes (launch [0x6A#8, 0x07#8])
      (fun t => t.reg .esp == 0x7BFC#32 && t.mem.word 0x7BFC == 7#32) = true := by decide
theorem test_push_imm8_settings : widenImm8 .sign 0x80#8 = 0xFFFFFF80#32 ∧ widenImm8 .zero 0x80#8 = 0x80#32 := by decide
theorem test_pop_esp_loaded_value :
    goes ((poke ((launch [0x5C#8] |>.setReg .esp 0x7BFC#32)) 0x7BFC 0x12345678#32))
      (fun t => t.reg .esp == 0x12345678#32) = true := by decide
theorem test_leave :
    goes ((poke ((launch [0xC9#8] |>.setReg .ebp 0x7BFC#32 |>.setReg .esp 0x7BF0#32)) 0x7BFC 0x1234#32))
      (fun t => t.reg .ebp == 0x1234#32 && t.reg .esp == 0x7C00#32) = true := by decide
theorem test_jmp_rel8_backwards :
    goes (launch [0xEB#8, 0x80#8])
      (fun t => t.eip == 0x7B82#32) = true := by decide
theorem test_jmp_rel32_halts :
    goes (((launch []).setEip 0x7C05#32 |> fun s => s.setMem (s.mem.setBytes 0x7C05 [0xE9#8, 0xF6#8, 0x83#8, 0xFF#8, 0xFF#8])))
      (fun t => t.eip == 0#32 && t.run == .halted) = true := by decide

/-- The eight values of EFLAGS in the table of L2.7. -/
def flagRows : List Word := [0x000#32, 0x001#32, 0x040#32, 0x080#32, 0x800#32, 0x880#32, 0x081#32, 0x881#32]

theorem test_jo_table :
    flagRows.map (fun f => goes ((launch [0x70#8, 0x10#8]).setEflags f) (fun t => t.eip == 0x7C12#32)) =
    [false, false, false, false, true, true, false, true] := by decide
theorem test_jno_table :
    flagRows.map (fun f => goes ((launch [0x71#8, 0x10#8]).setEflags f) (fun t => t.eip == 0x7C12#32)) =
    [true, true, true, true, false, false, true, false] := by decide
theorem test_jc_table :
    flagRows.map (fun f => goes ((launch [0x72#8, 0x10#8]).setEflags f) (fun t => t.eip == 0x7C12#32)) =
    [false, true, false, false, false, false, true, true] := by decide
theorem test_jnc_table :
    flagRows.map (fun f => goes ((launch [0x73#8, 0x10#8]).setEflags f) (fun t => t.eip == 0x7C12#32)) =
    [true, false, true, true, true, true, false, false] := by decide
theorem test_jz_table :
    flagRows.map (fun f => goes ((launch [0x74#8, 0x10#8]).setEflags f) (fun t => t.eip == 0x7C12#32)) =
    [false, false, true, false, false, false, false, false] := by decide
theorem test_jnz_table :
    flagRows.map (fun f => goes ((launch [0x75#8, 0x10#8]).setEflags f) (fun t => t.eip == 0x7C12#32)) =
    [true, true, false, true, true, true, true, true] := by decide
theorem test_js_table :
    flagRows.map (fun f => goes ((launch [0x78#8, 0x10#8]).setEflags f) (fun t => t.eip == 0x7C12#32)) =
    [false, false, false, true, false, true, true, true] := by decide
theorem test_jns_table :
    flagRows.map (fun f => goes ((launch [0x79#8, 0x10#8]).setEflags f) (fun t => t.eip == 0x7C12#32)) =
    [true, true, true, false, true, false, false, false] := by decide
theorem test_jl_table :
    flagRows.map (fun f => goes ((launch [0x7C#8, 0x10#8]).setEflags f) (fun t => t.eip == 0x7C12#32)) =
    [false, false, false, true, true, false, true, false] := by decide
theorem test_jle_table :
    flagRows.map (fun f => goes ((launch [0x7E#8, 0x10#8]).setEflags f) (fun t => t.eip == 0x7C12#32)) =
    [false, false, true, true, true, false, true, false] := by decide
theorem test_call_pushes_next :
    goes (launch [0xE8#8, 0x0E#8, 0x00#8, 0x00#8, 0x00#8])
      (fun t => t.reg .esp == 0x7BFC#32 && t.mem.word 0x7BFC == 0x7C05#32 && t.eip == 0x7C13#32) = true := by decide
theorem test_ret_pops :
    goes ((poke ((launch [0xC3#8] |>.setReg .esp 0x7BF8#32)) 0x7BF8 0x7C07#32))
      (fun t => t.eip == 0x7C07#32 && t.reg .esp == 0x7BFC#32) = true := by decide
theorem test_ret_to_zero_halts :
    goes (((launch [0xC3#8] |>.setReg .esp 0x6000#32)))
      (fun t => t.eip == 0#32 && t.run == .halted) = true := by decide
theorem test_in_live_port :
    goes ((((launch [0xEC#8] |>.setReg .edx 0x123403F8#32 |>.setReg .eax 0xAABBCCDD#32)).supplyInput [0x41#8]))
      (fun t => t.reg .eax == 0xAABBCC41#32 && t.consumed == 1) = true := by decide
theorem test_in_blocks : blocks ((launch [0xEC#8] |>.setReg .edx 0x3F8#32)) = true := by decide
theorem test_out_live_port :
    goes (((launch [0xEE#8] |>.setReg .edx 0x3F8#32 |>.setReg .eax 0x12345641#32)))
      (fun t => t.output == [0x41#8] && t.eip == 0x7C01#32) = true := by decide
theorem test_out_other_port :
    goes (((launch [0xEE#8] |>.setReg .edx 0x3F9#32 |>.setReg .eax 0x41#32)))
      (fun t => t.output == [] && t.eip == 0x7C01#32) = true := by decide

/-! The fatal ends of L2.1, L2.2 and L2.6, and the end of memory. -/

theorem test_fatal_opcode :
    fails (launch [0x90#8]) (.unimplementedOpcode 0x90#8 0x7C00#32) = true := by decide
theorem test_fatal_extension :
    fails (launch [0x83#8, 0xC8#8, 0x01#8]) (.unimplementedExtension 0x83#8 1#3 0x7C00#32) = true := by decide
theorem test_fatal_sib :
    fails (launch [0x8B#8, 0x04#8, 0x24#8]) (.decodeErrorSib 0x7C00#32 0x04#8) = true := by decide
theorem test_fatal_operand :
    fails (launch [0x8B#8, 0x05#8, 0xFD#8, 0xFF#8, 0x0F#8, 0x00#8]) (.boundsError 0x7C00#32 0xFFFFD 4) = true := by decide
theorem test_fatal_stack :
    fails (((launch [0x50#8] |>.setReg .esp 0x2#32))) (.boundsError 0x7C00#32 0xFFFFFFFE 4) = true := by decide
theorem test_fatal_fetch :
    fails (((launch []).setEip 0xFFFFD#32 |> fun s => s.setMem (s.mem.setBytes 0xFFFFD [0xB8#8, 0x01#8, 0x00#8]))) (.boundsError 0xFFFFD#32 0xFFFFE 4) = true := by decide
theorem test_exit_at_end :
    goes (((launch []).setEip 0x100000#32))
      (fun t => t.run == .exited && t.eip == 0x100000#32) = true := by decide

theorem test_sub_flags_vectors :
    subFlags 0x0#32 0x1#32 0#32 = 0x081#32 ∧ subFlags 0x5#32 0x5#32 0x881#32 = 0x040#32 ∧
    subFlags 0x80000000#32 0x1#32 0#32 = 0x800#32 ∧ subFlags 0x7FFFFFFF#32 0xFFFFFFFF#32 0#32 = 0x881#32 ∧
    subFlags 0xFFFFFFFF#32 0x1#32 0x040#32 = 0x080#32 ∧ subFlags 0x1#32 0xFFFFFFFF#32 0#32 = 0x001#32 := by decide
theorem test_advance_eip : ((launch []).setEip 0x100#32 |>.advanceEip 0xFFFFFFF0#32).eip = 0xF0#32 := by decide
theorem test_image_must_fit :
    (State.construct 0x10 0x0C#32 0x10#32 |>.bind (fun s => s.loadImage [0xB8#8, 0x01#8, 0x00#8, 0x00#8, 0x00#8] 0x0C#32)) =
      .error .imageDoesNotFit := by decide

/-! ## Witnesses: states and operands that meet an obligation's hypotheses -/

theorem witness_ConstructionGivesResetState :
    (0 < 1 ∧ 1 < 2 ^ 32) ∧ (0 < 2 ^ 32 - 1 ∧ 2 ^ 32 - 1 < 2 ^ 32) := by decide

theorem witness_ConstructionRefusesBadMemorySize : (0 : Nat) = 0 ∧ 2 ^ 32 ≤ 2 ^ 32 := by decide

theorem witness_LoadImageCopiesExactlyTheImage :
    (0xFFFFC#32).toNat + [1#8, 2#8, 3#8, 4#8].length ≤ State.reset.mem.size ∧
    State.reset.mem.size < (0xFFFFD#32).toNat + [1#8, 2#8, 3#8, 4#8].length := by decide

theorem witness_MemoryIsLittleEndian :
    (0xFFFFC#32).toNat + 4 ≤ State.reset.mem.size ∧ (0xFFFFF#32).toNat + 1 ≤ State.reset.mem.size := by decide

theorem witness_AccessOutsideMemoryIsBoundsError :
    State.reset.mem.size < (0xFFFFD#32).toNat + 4 ∧ State.reset.mem.size < (0x100000#32).toNat + 1 := by decide

theorem witness_RegisterLookupTotalBelowEight : 0 < 8 ∧ 7 < 8 ∧ 8 ≤ 8 := by decide

theorem witness_DecodeOfEncodeIsIdentity :
    (Instr.movRmImm32 (.mem (.sibDisp32 0x24#8 0x80000000#32)) 0xFFFFFFFF#32).wf = true ∧
    (Instr.addRmR (.mem (.base .edi)) .edi).wf = true ∧ Instr.outDxAl.wf = true := by decide

theorem witness_DecodedBytesAreTheEncoding :
    decode [0x8B#8, 0x04#8, 0x24#8, 0x90#8] = .ok (.movRRm .eax (.mem (.sib 0x24#8)), ⟨3, [0x90#8]⟩) := by decide

theorem witness_DecoderFollowsOpcodeTable :
    decode (0xFF#8 :: 0x45#8 :: [0x08#8]) = .ok (.incRm (.mem (.baseDisp8 .ebp 0x08#8)), ⟨3, []⟩) ∧
    9 ≤ (List.replicate 9 0#8).length ∧
    (0xFF00#16, 0xFF38#16) ∈ opcodeRows ∧ rowMatches (0xFF00#16, 0xFF38#16) 0xFF#8 0x45#8 = true := by decide

theorem witness_ModRMDescriptorLength :
    extraBytes 2#2 4#3 ≤ [0x24#8, 0#8, 0#8, 0#8, 0#8].length ∧ [0x24#8, 0#8, 0#8, 0#8].length < extraBytes 2#2 4#3 ∧
    extraBytes 0#2 5#3 ≤ [0#8, 0#8, 0#8, 0#8].length ∧ [0#8, 0#8, 0#8].length < extraBytes 0#2 5#3 := by decide

/-- One state for each outcome of `exec`. -/
theorem witness_StepRunsDecodedInstruction :
    (∃ s i c t, s.run = .running ∧ s.eip.toNat < s.mem.size ∧ decode (fetchWindow s) = .ok (i, c) ∧
      exec i s = next t) ∧
    (∃ s i c f, s.run = .running ∧ s.eip.toNat < s.mem.size ∧ decode (fetchWindow s) = .ok (i, c) ∧
      exec i s = fault f) ∧
    (∃ s i c r, s.run = .running ∧ s.eip.toNat < s.mem.size ∧ decode (fetchWindow s) = .ok (i, c) ∧
      exec i s = refused r) :=
  ⟨⟨launch [0xB8#8, 0x29#8], .movRImm32 .eax 0x29#32, ⟨5, List.replicate 6 0#8⟩, _, rfl, by decide, by decide, rfl⟩,
   ⟨launch [0x8B#8, 0x04#8, 0x24#8], .movRRm .eax (.mem (.sib 0x24#8)), ⟨3, List.replicate 8 0#8⟩, _, rfl,
     by decide, by decide, rfl⟩,
   ⟨(launch [0xEC#8]).setReg .edx 0x3F8#32, .inAlDx, ⟨1, List.replicate 10 0#8⟩, .blockedOnInput, rfl,
     by decide, by decide, rfl⟩⟩

theorem witness_StepRunsInstructionAtEip :
    ∃ s i, s.run = .running ∧ i.wf = true ∧ BytesAtEip s (encode i) :=
  ⟨launch [0x89#8, 0x45#8, 0xFC#8], .movRmR (.mem (.baseDisp8 .ebp 0xFC#8)) .eax, rfl, rfl,
    bytesAtEip_of (by decide) (by decide)⟩

/-- A jump to 0, a jump elsewhere, and an instruction at 0. -/
theorem witness_HaltSentinel :
    (∃ s i c t, s.run = .running ∧ s.eip.toNat < s.mem.size ∧ decode (fetchWindow s) = .ok (i, c) ∧
      exec i s = next t ∧ t.eip = 0#32) ∧
    (∃ s i c t, s.run = .running ∧ s.eip.toNat < s.mem.size ∧ decode (fetchWindow s) = .ok (i, c) ∧
      exec i s = next t ∧ t.eip ≠ 0#32) ∧
    (∃ s i, s.run = .running ∧ s.eip = 0#32 ∧ i.wf = true ∧ BytesAtEip s (encode i)) :=
  ⟨⟨launch [0xE9#8, 0xFB#8, 0x83#8, 0xFF#8, 0xFF#8], .jmpRel32 0xFFFF83FB#32, ⟨5, List.replicate 6 0#8⟩, _, rfl,
     by decide, by decide, rfl, by decide⟩,
   ⟨launch [0xEB#8, 0xFE#8], .jmpRel8 0xFE#8, ⟨2, List.replicate 9 0#8⟩, _, rfl, by decide, by decide, rfl,
     by decide⟩,
   ⟨(State.reset.setEip 0#32).setMem (State.reset.mem.setBytes 0 [0xC9#8]), .leave, rfl, rfl, rfl,
     bytesAtEip_of (by decide) (by decide)⟩⟩

theorem witness_ExitAtEndOfMemory :
    (State.reset.setEip 0x100000#32).run = .running ∧
    (State.reset.setEip 0x100000#32).mem.size ≤ (State.reset.setEip 0x100000#32).eip.toNat := by decide

theorem witness_TerminalRunStatesAreNeverLeft :
    ∃ s t : State, s.run = .halted ∧ s.run ≠ .running ∧ Reaches s t :=
  ⟨State.reset.setRun .halted, _, rfl, by decide, .step .refl rfl⟩

theorem witness_DecoderIsTotal : State.reset.run = .running ∧ State.reset.eip.toNat < State.reset.mem.size := by
  decide

theorem witness_UnregisteredOpcodeIsFatal :
    State.reset.run = .running ∧ State.reset.eip.toNat < State.reset.mem.size ∧
    State.reset.mem.byte State.reset.eip.toNat ∉ registeredOpcodes := by decide

/-- The vector `83 CC` in the last two bytes of memory. -/
theorem witness_UnregisteredExtensionIsFatal :
    ∃ (s : State) (op b : Byte), s.run = .running ∧ op ∈ [0x83#8, 0xC7#8, 0xFF#8] ∧ BytesAtEip s [op, b] ∧
      b.extractLsb' 3 3 ∉ registeredExtensions op ∧
      s.eip.toNat + 2 + extraBytes (b.extractLsb' 6 2) (b.extractLsb' 0 3) = s.mem.size :=
  ⟨(State.reset.setEip 0xFFFFE#32).setMem (State.reset.mem.setBytes 0xFFFFE [0x83#8, 0xCC#8]), 0x83#8, 0xCC#8, rfl,
    by decide, bytesAtEip_of (by decide) (by decide), by decide, by decide⟩

/-- One fatal step of each kind that a step can raise. -/
theorem witness_FatalDiagnosticIsTrue :
    (∃ s e b, step s = fault (.decodeErrorSib e b)) ∧ (∃ s op e, step s = fault (.unimplementedOpcode op e)) ∧
    (∃ s op x e, step s = fault (.unimplementedExtension op x e)) ∧ (∃ s e a, step s = fault (.boundsError e a 1)) ∧
    (∃ s e a, step s = fault (.boundsError e a 4)) :=
  ⟨⟨_, _, _, fails_fault test_fatal_sib⟩, ⟨_, _, _, fails_fault test_fatal_opcode⟩,
   ⟨_, _, _, _, fails_fault test_fatal_extension⟩,
   ⟨(State.reset.setEip 0xFFFFF#32).setMem (State.reset.mem.setBytes 0xFFFFF [0x75#8]), 0xFFFFF#32, 0x100000,
     fails_fault (by decide)⟩,
   ⟨_, _, _, fails_fault test_fatal_operand⟩⟩

theorem witness_FetchReadsCurrentMemory :
    (10 < maxLength ∧ State.reset.eip.toNat + 10 < State.reset.mem.size) ∧
    ∃ (s t : State) (a v : Word) (k : Nat) (b : Byte), memWrite32 s a v = .ok t ∧ (bytes32 v)[k]? = some b ∧
      t.eip.toNat ≤ a.toNat + k ∧ a.toNat + k < t.eip.toNat + maxLength :=
  ⟨by decide, State.reset, _, 0x7C01#32, 42#32, 0, 42#8, memWrite32_ok.2 ⟨by decide, rfl⟩, by decide, by decide,
    by decide⟩

theorem witness_JumpToItselfNeverEnds :
    ∃ s : State, s.run = .running ∧ s.eip ≠ 0#32 ∧ BytesAtEip s [0xEB#8, 0xFE#8] :=
  ⟨launch [0xEB#8, 0xFE#8], rfl, by decide, bytesAtEip_of (by decide) (by decide)⟩

theorem reset_inv : State.reset.Inv :=
  ⟨by decide, by decide, by decide, by decide, by decide, by decide, by decide⟩

theorem witness_ConstructionMeetsInvariant :
    (∃ s, State.construct 1 0#32 0#32 = .ok s) ∧
    ∃ t, State.reset.Inv ∧ State.reset.loadImage [0xB8#8, 0x29#8] 0x7C00#32 = .ok t :=
  ⟨⟨_, rfl⟩, ⟨_, reset_inv, rfl⟩⟩

/-- A store, a halt, and an exit. -/
theorem witness_StepKeepsInvariant :
    (∃ s t : State, s.Inv ∧ step s = next t ∧ t.mem ≠ s.mem) ∧
    (∃ s t : State, s.Inv ∧ step s = next t ∧ t.run = .exited) := by
  refine ⟨?_, ?_⟩
  · obtain ⟨t, ht, hp⟩ := goes_next (s := State.reset.withFetchWord 16 0x6807)
      (p := fun t => t.mem != (State.reset.withFetchWord 16 0x6807).mem) (by decide)
    exact ⟨_, t, ⟨by decide, by decide, by decide, by decide, by decide, by decide, by decide⟩, ht, by simpa using hp⟩
  · obtain ⟨t, ht, hp⟩ := goes_next (s := State.reset.setEip 0x100000#32) (p := fun t => t.run == .exited) (by decide)
    exact ⟨_, t, ⟨by decide, by decide, by decide, by decide, by decide, by decide, by decide⟩, ht, by simpa using hp⟩

/-- A step that consumes a byte and one that appends a byte. -/
theorem witness_StepKeepsSizeAndStreams :
    (∃ s t : State, step s = next t ∧ t.consumed = s.consumed + 1) ∧
    (∃ s t : State, step s = next t ∧ t.output = s.output ++ [0x41#8]) := by
  refine ⟨?_, ?_⟩
  · obtain ⟨t, ht, hp⟩ := goes_next test_in_live_port
    exact ⟨_, t, ht, by simp only [Bool.and_eq_true, beq_iff_eq] at hp; exact hp.2⟩
  · obtain ⟨t, ht, hp⟩ := goes_next test_out_live_port
    exact ⟨_, t, ht, by simp only [Bool.and_eq_true, beq_iff_eq] at hp; exact hp.1⟩

theorem witness_FlagWritersAndReaders :
    (∃ s t, writesFlags (.addRmR (.reg .eax) .ecx) = false ∧ exec (.addRmR (.reg .eax) .ecx) s = next t) ∧
    (∃ s t, writesFlags (.subRmImm8 (.reg .eax) 1#8) = true ∧ isConditionalJump (.subRmImm8 (.reg .eax) 1#8) = false ∧
      exec (.subRmImm8 (.reg .eax) 1#8) s = next t) ∧
    (∃ s f, exec (.popR .eax) s = fault f) ∧ (∃ s r, exec .inAlDx s = refused r) :=
  ⟨⟨State.reset, _, rfl, rfl⟩, ⟨State.reset, _, rfl, rfl, rfl⟩,
   ⟨State.reset.setReg .esp 0xFFFFD#32, .boundsError 0x7C00#32 0xFFFFD 4, rfl⟩,
   ⟨State.reset.setReg .edx 0x3F8#32, .blockedOnInput, rfl⟩⟩

/-- A non-transfer, every unconditional transfer, and a conditional jump taken and not taken. -/
theorem witness_EipAfterInstruction :
    (∃ s i c t, s.run = .running ∧ s.eip.toNat < s.mem.size ∧ decode (fetchWindow s) = .ok (i, c) ∧
      exec i s = next t) ∧
    (∃ s t, exec (.movRImm32 .eax 0#32) s = next t) ∧ (∃ s t, exec (.jmpRel8 0x80#8) s = next t) ∧
    (∃ s t, exec (.jmpRel32 0xFFFFFFFF#32) s = next t) ∧ (∃ s t, exec (.callRel32 0#32) s = next t) ∧
    (∃ s t, exec .ret s = next t) ∧ (∃ s t, exec (.jnz 0xF9#8) s = next t ∧ condHolds .nz s.eflags = true) ∧
    (∃ s t, exec (.jz 0xF9#8) s = next t ∧ condHolds .z s.eflags = false) := by
  refine ⟨witness_StepRunsDecodedInstruction.1, ⟨State.reset, _, rfl⟩, ⟨State.reset, _, rfl⟩,
    ⟨State.reset, _, rfl⟩, ?_, ?_, ?_, ?_⟩
  · obtain ⟨t, ht, -⟩ := execGoes_next (i := .callRel32 0#32) (s := State.reset) (p := fun _ => true) (by decide)
    exact ⟨_, t, ht⟩
  · obtain ⟨t, ht, -⟩ := execGoes_next (i := .ret) (s := State.reset) (p := fun _ => true) (by decide)
    exact ⟨_, t, ht⟩
  · exact ⟨State.reset, _, jccRel8_eq .nz 0xF9#8 State.reset, by decide⟩
  · exact ⟨State.reset, _, jccRel8_eq .z 0xF9#8 State.reset, by decide⟩

/-- IN on another port, and an instruction that is no port instruction while EDX names the live port. -/
theorem witness_OnlyPortInstructionsReachPorts :
    (∃ s t, exec .inAlDx s = next t ∧ (s.reg .edx).extractLsb' 0 16 ≠ 0x03F8#16) ∧
    (∃ s t, exec (.jmpRel8 0#8) s = next t ∧ Instr.jmpRel8 0#8 ≠ .inAlDx ∧ Instr.jmpRel8 0#8 ≠ .outDxAl ∧
      (s.reg .edx).extractLsb' 0 16 = 0x03F8#16) :=
  ⟨⟨State.reset, _, rfl, by decide⟩, ⟨State.reset.setReg .edx 0x3F8#32, _, rfl, by decide, by decide, by decide⟩⟩

theorem witness_BlockedOnlyWithoutInputByte :
    ∃ s : State, step s = refused .blockedOnInput ∧ s.consumed = s.input.length :=
  ⟨(launch [0xEC#8]).setReg .edx 0x3F8#32, blocks_refused (by decide), rfl⟩

theorem witness_UnreadInputDoesNotMatter : (∃ s t, step s = next t) ∧ ∃ s f, step s = fault f := by
  obtain ⟨t, ht, -⟩ := goes_next test_in_live_port
  exact ⟨⟨_, t, ht⟩, ⟨_, _, fails_fault test_fatal_opcode⟩⟩

/-- `B8 01 00` as the last three bytes of memory. -/
theorem witness_MovImmediateToRegister :
    ∃ s : State, s.run = .running ∧ s.eip.toNat < s.mem.size ∧ s.mem.size < s.eip.toNat + 5 ∧
      s.mem.byte s.eip.toNat = BitVec.ofNat 8 (0xB8 + Reg.eax.field.toNat) :=
  ⟨(State.reset.setEip 0xFFFFD#32).setMem (State.reset.mem.setBytes 0xFFFFD [0xB8#8, 0x01#8, 0x00#8]), rfl,
    by decide, by decide, by decide⟩

/-- A register operand, and each memory form at the last word of memory. -/
theorem accessible_forms :
    Accessible (.reg .esp) State.reset ∧ Accessible (.mem (.abs 0xFFFFC#32)) State.reset ∧
    Accessible (.mem (.base .eax)) (State.reset.setReg .eax 0xFFFFC#32) ∧
    Accessible (.mem (.baseDisp8 .ebp 0xFC#8)) (State.reset.setReg .ebp 0x100000#32) ∧
    Accessible (.mem (.baseDisp32 .edi 0xFFFFFFFF#32)) (State.reset.setReg .edi 1#32) :=
  ⟨trivial, ⟨_, rfl, by decide⟩, ⟨_, rfl, by decide⟩, ⟨_, rfl, by decide⟩, ⟨_, rfl, by decide⟩⟩

theorem witness_MovWritesOperand :
    Accessible (.reg .esp) State.reset ∧ Accessible (.mem (.abs 0xFFFFC#32)) State.reset :=
  ⟨accessible_forms.1, accessible_forms.2.1⟩

/-- A register operand and a memory operand, with the values they hold. -/
theorem operand_holds_forms :
    (Accessible (.reg .esp) State.reset ∧ OperandHolds (.reg .esp) State.reset 0x7C00#32) ∧
    (Accessible (.mem (.abs 0xFFFFC#32)) (poke State.reset 0xFFFFC 0x80000000#32) ∧
      OperandHolds (.mem (.abs 0xFFFFC#32)) (poke State.reset 0xFFFFC 0x80000000#32) 0x80000000#32) :=
  ⟨⟨trivial, rfl⟩, ⟨_, rfl, by decide⟩, fun a ha => by
    obtain rfl : 0xFFFFC#32 = a := Option.some.inj ha
    exact storedAt_setWord _ _ _⟩

theorem witness_MovLoadsOperand :
    ∃ rm s v, Accessible rm s ∧ OperandHolds rm s v := ⟨_, _, _, operand_holds_forms.2⟩

theorem witness_AddAndIncWrapAndWriteNoFlag :
    ∃ rm s v, Accessible rm s ∧ OperandHolds rm s v := ⟨_, _, _, operand_holds_forms.1⟩

theorem witness_SubWritesDifferenceAndFlags :
    ∃ rm s v, Accessible rm s ∧ OperandHolds rm s v := ⟨_, _, _, operand_holds_forms.2⟩

theorem witness_CmpWritesOnlyFlags :
    ∃ rm s v, Accessible rm s ∧ OperandHolds rm s v := ⟨_, _, _, operand_holds_forms.2⟩

/-- The lowest slot, and an imm8 on both sides of 0x80. -/
theorem witness_PushStoresBelowEsp :
    PushFits (State.reset.setReg .esp 4#32) ∧ PushFits (State.reset.setReg .esp 0x100000#32) ∧
    (0x7F#8).toNat < 0x80 := by
  unfold PushFits; decide

/-- The last word of memory. -/
theorem witness_PopLoadsAndIncrements :
    ∃ (s : State) (v : Word), (s.reg .esp).toNat + 4 ≤ s.mem.size ∧ StoredAt s.mem (s.reg .esp).toNat v :=
  ⟨(poke State.reset 0xFFFFC 7#32).setReg .esp 0xFFFFC#32, 7#32, by decide, storedAt_setWord _ _ _⟩

theorem witness_LeaveRestoresFrame :
    (∃ (s : State) (v : Word), (s.reg .ebp).toNat + 4 ≤ s.mem.size ∧ StoredAt s.mem (s.reg .ebp).toNat v) ∧
    (∃ s : State, s.mem.size < (s.reg .ebp).toNat + 4) :=
  ⟨⟨(poke State.reset 0xFFFFC 7#32).setReg .ebp 0xFFFFC#32, 7#32, by decide, storedAt_setWord _ _ _⟩,
   ⟨State.reset.setReg .ebp 0xFFFFD#32, by decide⟩⟩

theorem witness_PushThenPopRestores :
    (∃ s : State, Reg.eax ≠ .esp ∧ 4 ≤ (s.reg .esp).toNat ∧ (s.reg .esp).toNat ≤ s.mem.size ∧
      (s.reg .esp).toNat = 4) ∧
    (∃ s : State, Reg.edi ≠ .esp ∧ 4 ≤ (s.reg .esp).toNat ∧ (s.reg .esp).toNat ≤ s.mem.size ∧
      (s.reg .esp).toNat = s.mem.size) :=
  ⟨⟨State.reset.setReg .esp 4#32, by decide⟩, ⟨State.reset.setReg .esp 0x100000#32, by decide⟩⟩

/-- ESP just too low to push, ESP just too high to pop. -/
theorem witness_StackSlotOutsideMemoryIsFatal :
    (∃ s : State, s.mem.size < (s.reg .esp - 4#32).toNat + 4 ∧ (s.reg .esp).toNat = 3 ∧ s.mem.size < 2 ^ 32) ∧
    (∃ s : State, s.mem.size < (s.reg .esp).toNat + 4 ∧ (s.reg .esp).toNat = 0xFFFFD) :=
  ⟨⟨State.reset.setReg .esp 3#32, by decide⟩, ⟨State.reset.setReg .esp 0xFFFFD#32, by decide⟩⟩

theorem witness_SibOperandIsFatal :
    MemOp.sibDisp8 0x24#8 0x08#8 ∈ [MemOp.sib 0x24#8, .sibDisp8 0x24#8 0x08#8, .sibDisp32 0x24#8 0#32] ∧
    (0#3, Instr.incRm (.mem (.sibDisp8 0x24#8 0x08#8))) ∈
      modrmInstrs (.mem (.sibDisp8 0x24#8 0x08#8)) .eax 0#8 0#32 := by decide

/-- The first address whose four bytes do not fit. -/
theorem witness_OperandOutsideMemoryIsFatal :
    ∃ (m : MemOp) (a : Word), operandAddress m State.reset = some a ∧ State.reset.mem.size < a.toNat + 4 ∧
      (0#3, Instr.incRm (.mem m)) ∈ modrmInstrs (.mem m) .eax 0#8 0#32 :=
  ⟨.abs 0xFFFFD#32, _, rfl, by decide, by decide⟩

theorem witness_ConditionalJumpsTestTheirFlags :
    (0x75#8, Instr.jnz 0xF9#8, true) ∈ conditionalJumps 0xF9#8 0x081#32 ∧
    (0x7E#8, Instr.jle 0xF9#8, false) ∈ conditionalJumps 0xF9#8 0x880#32 := by decide

/-- `75` as the last byte of memory, with the jump taken and not taken. -/
theorem witness_ConditionalJumpAtEndOfMemoryIsFatal :
    ∃ s : State, (0x75#8, Instr.jnz 0#8, true) ∈ conditionalJumps 0#8 s.eflags ∧ s.run = .running ∧
      s.eip.toNat + 1 = s.mem.size ∧ s.mem.byte s.eip.toNat = 0x75#8 :=
  ⟨(State.reset.setEip 0xFFFFF#32).setMem (State.reset.mem.setBytes 0xFFFFF [0x75#8]), by decide, rfl, by decide,
    by decide⟩

theorem witness_RelativeTargetsAreSigned :
    (∃ s t, exec (.callRel32 0xFFFFFFFF#32) s = next t) ∧
    (∃ s t, (0x75#8, Instr.jnz 0x80#8, true) ∈ conditionalJumps 0x80#8 s.eflags ∧
      exec (.jnz 0x80#8) s = next t) := by
  refine ⟨?_, State.reset, _, by decide, jccRel8_eq .nz 0x80#8 State.reset⟩
  obtain ⟨t, ht, -⟩ := execGoes_next (i := .callRel32 0xFFFFFFFF#32) (s := State.reset) (p := fun _ => true) (by decide)
  exact ⟨_, t, ht⟩

theorem witness_CallPushesReturnAddress : PushFits (State.reset.setReg .esp 4#32) := by
  unfold PushFits; decide

/-- A popped 0, a popped `MEM_SIZE`, and a stack slot past the end of memory. -/
theorem witness_RetPopsEip :
    (∃ s : State, (s.reg .esp).toNat + 4 ≤ s.mem.size ∧ StoredAt s.mem (s.reg .esp).toNat 0#32) ∧
    (∃ (s : State) (v : Word), (s.reg .esp).toNat + 4 ≤ s.mem.size ∧ StoredAt s.mem (s.reg .esp).toNat v ∧
      v.toNat = s.mem.size ∧ s.run = .running) ∧
    (∃ s : State, s.mem.size < (s.reg .esp).toNat + 4) :=
  ⟨⟨State.reset.setReg .esp 0x6000#32, by decide, by unfold StoredAt; decide⟩,
   ⟨(poke State.reset 0x6000 0x100000#32).setReg .esp 0x6000#32, 0x100000#32, by decide, storedAt_setWord _ _ _,
     by decide, rfl⟩,
   ⟨State.reset.setReg .esp 0xFFFFE#32, by decide⟩⟩

/-- An input byte, no input byte, and another port; the upper half of EDX is set in the first. -/
theorem witness_InReadsPortByte :
    (∃ s : State, (s.reg .edx).extractLsb' 0 16 = 0x03F8#16 ∧ s.input[s.consumed]? = some 0x41#8) ∧
    (∃ s : State, (s.reg .edx).extractLsb' 0 16 = 0x03F8#16 ∧ s.input[s.consumed]? = none) ∧
    (∃ s : State, (s.reg .edx).extractLsb' 0 16 ≠ 0x03F8#16) :=
  ⟨⟨(State.reset.setReg .edx 0x123403F8#32).supplyInput [0x41#8], by decide⟩,
   ⟨State.reset.setReg .edx 0x3F8#32, by decide⟩, ⟨State.reset.setReg .edx 0x3F9#32, by decide⟩⟩

theorem witness_OutWritesPortByte :
    ((State.reset.setReg .edx 0x3F8#32).reg .edx).extractLsb' 0 16 = 0x03F8#16 ∧
    ((State.reset.setReg .edx 0x3F9#32).reg .edx).extractLsb' 0 16 ≠ 0x03F8#16 := by decide

end Sys2Proof.Tests
end

/-! # EFLAGS: who writes it and who reads it (10_state.md rule R29)

The proof turns on one idea. An instruction that is no conditional jump commutes with a replacement of
EFLAGS: run from `s.setEflags v`, it answers what it answers from `s`, with other flags. For a fixed
instruction and state the new flags are a function of `v` alone: `v` itself, or for SUB and CMP the
result of the subtraction-flag routine on `v`. With `v = s.eflags` the same equation says which flags
the instruction leaves, so writing and reading are settled together. -/

namespace Sys2Proof.Machine

/-! ## Replacing EFLAGS commutes with the operations over the state -/

section Commute

variable (s : State) (v : Word)

@[simp] theorem State.setEflags_self : s.setEflags s.eflags = s := rfl

@[simp] theorem State.setReg_setEflags (r : Reg) (w : Word) :
    (s.setEflags v).setReg r w = (s.setReg r w).setEflags v := rfl

@[simp] theorem State.setMem_setEflags (m : Memory) :
    (s.setEflags v).setMem m = (s.setMem m).setEflags v := rfl

@[simp] theorem State.setEip_setEflags (w : Word) : (s.setEflags v).setEip w = (s.setEip w).setEflags v := rfl

@[simp] theorem State.advanceEip_setEflags (d : Word) :
    (s.setEflags v).advanceEip d = (s.advanceEip d).setEflags v := rfl

@[simp] theorem State.jumpRelative_setEflags (len rel : Word) :
    (s.setEflags v).jumpRelative len rel = (s.jumpRelative len rel).setEflags v := rfl

/-- The flag routine's operands are all that it takes from outside EFLAGS. -/
theorem State.updateSubFlags_setEflags (a b : Word) :
    (s.setEflags v).updateSubFlags a b = (s.updateSubFlags a b).setEflags (subFlags a b v) := rfl

@[simp] theorem memRead32_setEflags (a : Word) : memRead32 (s.setEflags v) a = memRead32 s a := rfl

@[simp] theorem memWrite32_setEflags (a w : Word) :
    memWrite32 (s.setEflags v) a w = (·.setEflags v) <$> memWrite32 s a w := by
  cases h : s.mem.inBounds a.toNat 4 <;> simp [memWrite32, h]

@[simp] theorem push32_setEflags (w : Word) :
    push32 w (s.setEflags v) = (·.setEflags v) <$> push32 w s := by
  simp [push32]

@[simp] theorem pop32_setEflags :
    pop32 (s.setEflags v) = Prod.map id (·.setEflags v) <$> pop32 s := by
  simp [pop32]

@[simp] theorem effectiveAddress_setEflags (x : BitVec 3) (m : MemOp) :
    effectiveAddress x m (s.setEflags v) = effectiveAddress x m s := by
  simp [effectiveAddress, operandAddress_congr (s := s) (t := s.setEflags v) m rfl]

@[simp] theorem readRM_setEflags (x : BitVec 3) (rm : RM) : readRM x rm (s.setEflags v) = readRM x rm s := by
  cases rm with
  | reg r => rfl
  | mem m => simp [readRM]

@[simp] theorem writeRM_setEflags (x : BitVec 3) (rm : RM) (w : Word) :
    writeRM x rm w (s.setEflags v) = (·.setEflags v) <$> writeRM x rm w s := by
  cases rm with
  | reg r => rfl
  | mem m => simp [writeRM]

@[simp] theorem portIn_setEflags (p : BitVec 16) :
    portIn p (s.setEflags v) = Prod.map id (·.setEflags v) <$> portIn p s := by
  unfold portIn
  split
  · simp only [State.setEflags_input, State.setEflags_consumed]
    split <;> rfl
  · rfl

@[simp] theorem portOut_setEflags (p : BitVec 16) (b : Byte) :
    portOut p b (s.setEflags v) = (portOut p b s).setEflags v := by
  unfold portOut
  split <;> rfl

end Commute

/-! ## An outcome with EFLAGS replaced -/

/-- The outcome with EFLAGS replaced by `v` in its next state. -/
def withEflags (v : Word) : Host.Outcome State Fault Refusal → Host.Outcome State Fault Refusal
  | .next t => .next (t.setEflags v)
  | .fault f => .fault f
  | .refused r => .refused r

@[simp] theorem withEflags_next (v : Word) (t : State) : withEflags v (.next t) = .next (t.setEflags v) := rfl

@[simp] theorem withEflags_fault (v : Word) (f : Fault) : withEflags v (.fault f) = .fault f := rfl

@[simp] theorem withEflags_refused (v : Word) (r : Refusal) : withEflags v (.refused r) = .refused r := rfl

@[simp] theorem withEflags_outcomeOf (v : Word) (r : Except Fault State) :
    withEflags v (outcomeOf r) = outcomeOf ((·.setEflags v) <$> r) := by
  cases r <;> rfl

end Sys2Proof.Machine

namespace Sys2Proof.Claims

open Sys2Proof.Machine Host.Outcome

/-! ## Every instruction but the conditional jumps commutes with a replacement of EFLAGS -/

/-- An instruction that neither writes nor reads flags carries them through. -/
theorem exec_setEflags_of_not_writesFlags (i : Instr) (s : State) (v : Word) (hw : writesFlags i = false)
    (hj : isConditionalJump i = false) : exec i (s.setEflags v) = withEflags v (exec i s) := by
  cases i with
  | movRImm32 r imm => rfl
  | movRmR rm r => simp [exec, execMovRmR]
  | movRRm r rm => simp [exec, execMovRRm]
  | movRmImm32 rm imm => simp [exec, execMovRmImm32]
  | addRmR rm r => simp [exec, execAddRmR]
  | addRmImm8 rm imm => simp [exec, execAddRmImm8]
  | incRm rm => simp [exec, execIncRm]
  | pushR r => simp [exec, execPushR]
  | pushImm32 imm => simp [exec, execPushImm32]
  | pushImm8 imm => simp [exec, execPushImm8]
  | popR r => simp [exec, execPopR]
  | leave => simp [exec, execLeave]
  | jmpRel8 rel => rfl
  | jmpRel32 rel => rfl
  | callRel32 rel => simp [exec, execCallRel32]
  | ret => simp [exec, execRet]
  | inAlDx =>
    simp only [exec, execInAlDx, State.setEflags_reg, portIn_setEflags]
    cases portIn (lo16 (s.reg .edx)) s <;> rfl
  | outDxAl => simp [exec, execOutDxAl]
  | subRmImm8 | cmpRmImm8 => cases hw
  | jo | jno | jc | jnc | jz | jnz | js | jns | jl | jle => cases hj

/-- SUB and CMP pass them through the subtraction-flag routine, whose operands do not depend on them. -/
theorem exec_setEflags_of_writesFlags (i : Instr) (s : State) (hw : writesFlags i = true) :
    ∃ op1 op2, ∀ v, exec i (s.setEflags v) = withEflags (subFlags op1 op2 v) (exec i s) := by
  cases i with
  | subRmImm8 rm imm =>
    cases hr : readRM 5#3 rm s with
    | error f => exact ⟨0#32, 0#32, fun v => by simp [exec, execSubRmImm8, hr]⟩
    | ok a =>
      exact ⟨a, sext32 imm, fun v => by simp [exec, execSubRmImm8, hr, State.updateSubFlags_setEflags]⟩
  | cmpRmImm8 rm imm =>
    cases hr : readRM 7#3 rm s with
    | error f => exact ⟨0#32, 0#32, fun v => by simp [exec, execCmpRmImm8, hr]⟩
    | ok a =>
      exact ⟨a, sext32 imm, fun v => by simp [exec, execCmpRmImm8, hr, State.updateSubFlags_setEflags]⟩
  | _ => cases hw

/-! ## Writers -/

/-- Replacing the flags of `s` by its own shows which flags the instruction leaves. -/
theorem eflags_of_exec_setEflags {i : Instr} {s t : State} {w : Word} (h : exec i s = next t)
    (hc : exec i (s.setEflags s.eflags) = withEflags w (exec i s)) : t.eflags = w := by
  rw [State.setEflags_self, h, withEflags_next, next.injEq] at hc
  rw [hc, State.setEflags_eflags]

/-- A conditional jump leaves the flags it tests (R162). -/
theorem eflags_of_conditionalJump {i : Instr} {s t : State} (hj : isConditionalJump i = true)
    (h : exec i s = next t) : t.eflags = s.eflags := by
  have hjcc (cc : Cond) (rel : Byte) (h : jccRel8 cc rel s = next t) : t.eflags = s.eflags := by
    rw [jccRel8_eq, next.injEq] at h
    rw [← h, State.setEip_eflags]
  cases i with
  | jo | jno | jc | jnc | jz | jnz | js | jns | jl | jle => exact hjcc _ _ h
  | _ => cases hj

/-- Only SUB and CMP write flags. -/
theorem eflags_of_not_writesFlags {i : Instr} {s t : State} (hw : writesFlags i = false)
    (h : exec i s = next t) : t.eflags = s.eflags := by
  cases hj : isConditionalJump i with
  | true => exact eflags_of_conditionalJump hj h
  | false => exact eflags_of_exec_setEflags h (exec_setEflags_of_not_writesFlags i s _ hw hj)

/-- SUB and CMP write them through the routine. -/
theorem eflags_of_writesFlags {i : Instr} {s t : State} (hw : writesFlags i = true)
    (h : exec i s = next t) : ∃ op1 op2, t.eflags = subFlags op1 op2 s.eflags := by
  obtain ⟨op1, op2, hc⟩ := exec_setEflags_of_writesFlags i s hw
  exact ⟨op1, op2, eflags_of_exec_setEflags h (hc s.eflags)⟩

/-! ## Readers -/

/-- From two states that differ in EFLAGS alone, an instruction that is no conditional jump answers
outcomes that differ in EFLAGS alone. -/
theorem exec_setEflags (i : Instr) (s : State) (v : Word) (hj : isConditionalJump i = false) :
    ∃ w, exec i (s.setEflags v) = withEflags w (exec i s) := by
  cases hw : writesFlags i with
  | false => exact ⟨v, exec_setEflags_of_not_writesFlags i s v hw hj⟩
  | true =>
    obtain ⟨op1, op2, hc⟩ := exec_setEflags_of_writesFlags i s hw
    exact ⟨_, hc v⟩

theorem sameButFlags_setEflags (t : State) (w : Word) : SameButFlags t (t.setEflags w) := rfl

/-- Settles O28: an instruction that is no conditional jump commutes with a replacement of EFLAGS, which
says both what it reads and what it writes; a conditional jump changes EIP only. -/
theorem flagWritersAndReaders : Obligations.FlagWritersAndReaders := by
  unfold Obligations.FlagWritersAndReaders
  refine ⟨fun f => ⟨rfl, rfl, rfl, rfl⟩, State.setEflags_eflags, fun i s t h => ?_, fun i s v hj => ?_⟩
  · exact ⟨fun hw => eflags_of_not_writesFlags hw h, fun hw => eflags_of_writesFlags hw h⟩
  · obtain ⟨w, hw⟩ := exec_setEflags i s v hj
    refine ⟨fun t h => ⟨t.setEflags w, ?_, sameButFlags_setEflags t w⟩, fun f h => ?_, fun r h => ?_⟩
    · rw [hw, h, withEflags_next]
    · rw [hw, h, withEflags_fault]
    · rw [hw, h, withEflags_refused]

end Sys2Proof.Claims

/-! # Memory is little-endian (20_memory.md rule R54)

For each width, from a write that succeeded: what lies in memory, what the write left unchanged, and what
a later read answers. After a four-byte write, a one-byte read at `a + k` answers byte `k` of `bytes32 v`,
so the byte order of a write stands in `bytes32` alone. -/

namespace Sys2Proof.Claims

open Sys2Proof.Machine

/-- A code fetch takes its four bytes low first. -/
theorem fetch32_cons (p : Nat) (b0 b1 b2 b3 : Byte) (rest : List Byte) :
    fetch32 ⟨p, b0 :: b1 :: b2 :: b3 :: rest⟩ = .ok (b3 ++ b2 ++ b1 ++ b0, ⟨p + 4, rest⟩) := rfl

theorem memRead32_bytes {s : State} {a : Word} (ha : a.toNat + 4 ≤ s.mem.size) :
    memRead32 s a = .ok (s.mem.byte (a.toNat + 3) ++ s.mem.byte (a.toNat + 2) ++
      s.mem.byte (a.toNat + 1) ++ s.mem.byte a.toNat) :=
  memRead32_ok.2 ⟨ha, rfl⟩

/-! ## After a four-byte write -/

section Write32

variable {s t : State} {a v : Word}

theorem storedAt_of_memWrite32 (h : memWrite32 s a v = .ok t) : StoredAt t.mem a.toNat v := by
  obtain ⟨-, rfl⟩ := memWrite32_ok.1 h
  exact storedAt_setWord ..

theorem bytesKeptOutside_of_memWrite32 (h : memWrite32 s a v = .ok t) :
    BytesKeptOutside a.toNat 4 s t := by
  obtain ⟨-, rfl⟩ := memWrite32_ok.1 h
  exact ⟨Memory.setWord_size .., fun _ hb => Memory.byte_setWord_outside _ _ hb⟩

/-- A write of memory changes no other part of the state. -/
theorem kept_of_memWrite32 (h : memWrite32 s a v = .ok t) :
    RegsKept [] s t ∧ t.eip = s.eip ∧ t.eflags = s.eflags ∧ HostKept s t := by
  obtain ⟨-, rfl⟩ := memWrite32_ok.1 h
  exact ⟨fun _ _ => rfl, rfl, rfl, rfl, rfl, rfl, rfl⟩

theorem memRead32_of_memWrite32 (h : memWrite32 s a v = .ok t) : memRead32 t a = .ok v := by
  obtain ⟨ha, rfl⟩ := memWrite32_ok.1 h
  exact memRead32_ok.2 ⟨by simpa using ha, Memory.word_setWord_same ..⟩

/-- A byte read inside a written word returns that byte of the word. -/
theorem memRead8_of_memWrite32 {a' : Word} {k : Nat} {b : Byte} (h : memWrite32 s a v = .ok t)
    (hk : (bytes32 v)[k]? = some b) (ha' : a'.toNat = a.toNat + k) : memRead8 t a' = .ok b := by
  obtain ⟨ha, rfl⟩ := memWrite32_ok.1 h
  have hlt : k < 4 := (List.getElem?_eq_some_iff.1 hk).1
  have hin : a'.toNat + 1 ≤ s.mem.size := by omega
  have hbyte : (s.mem.setWord a.toNat v).byte a'.toNat = b := ha' ▸ Memory.byte_setBytes_inside _ hk
  exact memRead8_ok.2 ⟨by simpa using hin, hbyte⟩

end Write32

/-! ## After a one-byte write -/

section Write8

variable {s t : State} {a : Word} {b : Byte}

theorem byte_of_memWrite8 (h : memWrite8 s a b = .ok t) : t.mem.byte a.toNat = b := by
  obtain ⟨-, rfl⟩ := memWrite8_ok.1 h
  exact Memory.byte_setByte_same ..

theorem bytesKeptOutside_of_memWrite8 (h : memWrite8 s a b = .ok t) :
    BytesKeptOutside a.toNat 1 s t := by
  obtain ⟨-, rfl⟩ := memWrite8_ok.1 h
  exact ⟨Memory.setByte_size .., fun _ hx => Memory.byte_setByte_other _ _ (by omega)⟩

theorem memRead8_of_memWrite8 (h : memWrite8 s a b = .ok t) : memRead8 t a = .ok b := by
  obtain ⟨ha, -⟩ := memWrite8_ok.1 h
  have hsize : t.mem.size = s.mem.size := (bytesKeptOutside_of_memWrite8 h).1
  exact memRead8_ok.2 ⟨hsize ▸ ha, byte_of_memWrite8 h⟩

end Write8

/-- Settles O4: the reads are the bytes of memory, and each in-bounds write succeeds with the state
whose bytes and frame the lemmas above give. -/
theorem memoryIsLittleEndian : Obligations.MemoryIsLittleEndian := by
  unfold Obligations.MemoryIsLittleEndian
  refine ⟨fetch32_cons, fun s a v b => ⟨fun ha => ⟨memRead32_bytes ha, ?_⟩, fun ha => ⟨?_, ?_⟩⟩⟩
  · have hw : memWrite32 s a v = .ok _ := memWrite32_ok.2 ⟨ha, rfl⟩
    obtain ⟨hregs, heip, heflags, hhost⟩ := kept_of_memWrite32 hw
    exact ⟨_, hw, storedAt_of_memWrite32 hw, bytesKeptOutside_of_memWrite32 hw, hregs, heip, heflags,
      hhost, memRead32_of_memWrite32 hw, memRead8_of_memWrite32 (k := 0) hw rfl rfl,
      fun a3 ha3 => memRead8_of_memWrite32 hw rfl ha3⟩
  · exact memRead8_ok.2 ⟨ha, rfl⟩
  · have hw : memWrite8 s a b = .ok _ := memWrite8_ok.2 ⟨ha, rfl⟩
    exact ⟨_, hw, byte_of_memWrite8 hw, bytesKeptOutside_of_memWrite8 hw, memRead8_of_memWrite8 hw⟩

end Sys2Proof.Claims

/-! # The ModR/M descriptor, decoding and the end of memory (30_encoding.md)

Each part of the decoder is inverted once. If it succeeds, the bytes it took are the encoding of the
well-formed term it answers. If the ModR/M descriptor fails, its bytes were too few and the read that
failed passes their end. -/

namespace Sys2Proof.Claims

open Sys2Proof.Machine Host.Outcome

/-! ## A rejected ModR/M descriptor -/

/-- Fewer than `need` bytes follow the cursor, and `e` names a read that starts at or behind the cursor
and passes the end of these bytes. -/
def PassesEnd (c : Cursor) (need : Nat) (e : DecodeError) : Prop :=
  c.rest.length < need ∧ ∃ offset width, e = .truncated offset width ∧ c.pos ≤ offset ∧
    c.pos + c.rest.length < offset + width

theorem PassesEnd.mono {c : Cursor} {m n : Nat} {e : DecodeError} (h : PassesEnd c m e) (hmn : m ≤ n) :
    PassesEnd c n e :=
  ⟨Nat.lt_of_lt_of_le h.1 hmn, h.2⟩

theorem passesEnd_truncated {c : Cursor} {n : Nat} (h : c.rest.length < n) :
    PassesEnd c n (.truncated c.pos n) :=
  ⟨h, c.pos, n, rfl, Nat.le_refl _, Nat.add_lt_add_left h _⟩

theorem fetch8_error {c : Cursor} {e : DecodeError} (h : fetch8 c = .error e) : PassesEnd c 1 e := by
  obtain ⟨p, bs⟩ := c
  cases bs with
  | nil => cases h; exact passesEnd_truncated Nat.one_pos
  | cons b bs => cases h

theorem fetch32_error {c : Cursor} {e : DecodeError} (h : fetch32 c = .error e) : PassesEnd c 4 e := by
  obtain ⟨p, bs⟩ := c
  match bs with
  | [] | [_] | [_, _] | [_, _, _] => cases h; exact passesEnd_truncated (by simp)
  | _ :: _ :: _ :: _ :: _ => cases h

/-- The read fails behind a byte that was there. -/
theorem passesEnd_of_fetch8 {c d : Cursor} {b : Byte} {need : Nat} {e : DecodeError}
    (h : fetch8 c = .ok (b, d)) (he : PassesEnd d need e) : PassesEnd c (need + 1) e := by
  obtain ⟨hrest, hpos⟩ := fetch8_ok h
  obtain ⟨hneed, offset, width, rfl, hstart, hend⟩ := he
  have hlen : c.rest.length = d.rest.length + 1 := by rw [hrest, List.length_cons]
  exact ⟨by omega, offset, width, rfl, by omega, by omega⟩

/-- With nothing that can fail behind it, a read that fails is the failure of the whole. -/
theorem bind_ok_eq_error {ε α β : Type} {x : Except ε α} {f : α → β} {e : ε} :
    (x >>= fun a => .ok (f a)) = .error e ↔ x = .error e := by
  cases x <;> simp

theorem decodeSib_error {mod : BitVec 2} {c : Cursor} {e : DecodeError} (hm : mod ≠ 3#2)
    (h : decodeSib mod c = .error e) : PassesEnd c (extraBytes mod 4#3) e := by
  rcases bind_error.1 h with h | ⟨⟨sib, d⟩, hsib, h⟩
  · have hone : ∀ mod ≠ 3#2, 1 ≤ extraBytes mod 4#3 := by decide
    exact (fetch8_error h).mono (hone mod hm)
  · dsimp only at h
    split at h
    · next h2 =>
      rw [h2]
      exact passesEnd_of_fetch8 hsib (fetch32_error (bind_ok_eq_error.1 h))
    · split at h
      · next h1 =>
        rw [h1]
        exact passesEnd_of_fetch8 hsib (fetch8_error (bind_ok_eq_error.1 h))
      · cases h

theorem decodeBase_error {mod : BitVec 2} {rm : BitVec 3} {c : Cursor} {e : DecodeError}
    (hm : mod ≠ 3#2) (hr : rm ≠ 4#3) (h : decodeBase mod rm c = .error e) :
    PassesEnd c (extraBytes mod rm) e := by
  simp only [decodeBase] at h
  simp only [extraBytes, hm, hr, if_false]
  split at h
  · next h2 =>
    rw [if_pos h2]
    exact fetch32_error (bind_ok_eq_error.1 h)
  · next h2 =>
    rw [if_neg h2]
    split at h
    · next h1 =>
      rw [if_pos h1]
      exact fetch8_error (bind_ok_eq_error.1 h)
    · next h1 =>
      rw [if_neg h1]
      split at h
      · next h5 =>
        rw [if_pos h5]
        exact fetch32_error (bind_ok_eq_error.1 h)
      · cases h

/-- The descriptor fails only for want of the bytes that its `mod` and `rm` fields ask for. -/
theorem decodeModRM_error {p : Nat} {b : Byte} {rest : List Byte} {e : DecodeError}
    (h : decodeModRM ⟨p, b :: rest⟩ = .error e) :
    PassesEnd ⟨p + 1, rest⟩ (extraBytes (b.extractLsb' 6 2) (b.extractLsb' 0 3)) e := by
  simp only [decodeModRM, fetch8_cons, ok_bind] at h
  split at h
  · cases h
  · next hm =>
    split at h
    · next hr =>
      rw [hr]
      exact decodeSib_error hm (bind_ok_eq_error.1 h)
    · next hr => exact decodeBase_error hm hr (bind_ok_eq_error.1 h)

/-! ## A decoded ModR/M descriptor -/

theorem tail_length (rm : RM) : rm.tail.length = rm.extra := by
  have h := RM.bytes_length 0#3 rm
  rw [RM.bytes, List.length_cons] at h
  omega

/-- A base register other than ESP does not take the field of the SIB escape (R73). -/
theorem field_ne_of_ne_esp {b : Reg} (h : (b != .esp) = true) : b.field ≠ 4#3 := by
  revert h; cases b <;> decide

/-- A well-formed operand has the SIB and displacement bytes that its own fields ask for. -/
theorem extra_eq_extraBytes {rm : RM} (h : rm.wf = true) :
    rm.extra = extraBytes rm.modField rm.rmField := by
  cases rm with
  | reg r => rfl
  | mem m =>
    cases m with
    | base b => revert h; cases b <;> decide
    | baseDisp8 b d | baseDisp32 b d =>
      simp [RM.extra, RM.modField, RM.rmField, extraBytes, field_ne_of_ne_esp h]
    | abs _ | sib _ | sibDisp8 _ _ | sibDisp32 _ _ => rfl

/-- A descriptor that decodes had its bytes, and its operand is read from exactly these. -/
theorem decodeModRM_cons_ok {p : Nat} {b : Byte} {rest : List Byte} {x : BitVec 3} {rm : RM} {d : Cursor}
    (h : decodeModRM ⟨p, b :: rest⟩ = .ok (x, rm, d)) :
    rm.modrm x = b ∧ x = b.extractLsb' 3 3 ∧
      rm.extra = extraBytes (b.extractLsb' 6 2) (b.extractLsb' 0 3) ∧
      rest = rm.tail ++ d.rest ∧ d.pos = p + 1 + rm.extra := by
  obtain ⟨hwf, hbytes, hpos⟩ := decodeModRM_ok h
  obtain ⟨rfl, hrest⟩ : b = rm.modrm x ∧ rest = rm.tail ++ d.rest := by
    simpa [RM.bytes] using hbytes
  obtain ⟨hmod, hreg, hrm⟩ := RM.modrm_fields x rm
  exact ⟨rfl, hreg.symm, by rw [hmod, hrm]; exact extra_eq_extraBytes hwf, hrest, hpos⟩

/-- Settles O12: a descriptor that decodes had its bytes, one that is rejected had fewer, so the number
of bytes decides which of the two lemmas above describes it. -/
theorem modRMDescriptorLength : Obligations.ModRMDescriptorLength := by
  unfold Obligations.ModRMDescriptorLength
  intro p b rest
  cases hd : decodeModRM ⟨p, b :: rest⟩ with
  | ok r =>
    obtain ⟨x, rm, pos, left⟩ := r
    obtain ⟨hmodrm, rfl, hextra, hrest, hpos⟩ := decodeModRM_cons_ok hd
    have htail : rm.tail.length = extraBytes (b.extractLsb' 6 2) (b.extractLsb' 0 3) :=
      (tail_length rm).trans hextra
    have hdrop : rest.drop (extraBytes (b.extractLsb' 6 2) (b.extractLsb' 0 3)) = left := by
      rw [hrest, ← htail, List.drop_left]
    refine ⟨fun _ => ⟨rm, ?_, hmodrm, ?_, hextra⟩, fun hshort => ?_⟩
    · rw [hdrop, ← hextra, ← hpos]
    · rw [hdrop, ← hrest]
    · have hlen := congrArg List.length hrest
      rw [List.length_append] at hlen
      omega
  | error e =>
    obtain ⟨hshort, offset, width, rfl, hstart, hend⟩ := decodeModRM_error hd
    exact ⟨fun henough => absurd hshort (Nat.not_lt.2 henough),
      fun _ => ⟨offset, width, rfl, hstart, hend⟩⟩

/-! ## The loop test at the end of memory -/

theorem step_of_eip_outside {s : State} (hr : s.run = .running) (hb : s.mem.size ≤ s.eip.toNat) :
    step s = next (s.setRun .exited) := by
  unfold step
  simp [hr, eipInMemory, Nat.not_lt.2 hb]

/-- Settles O17: the step replaces the run state and nothing else. -/
theorem exitAtEndOfMemory : Obligations.ExitAtEndOfMemory := by
  unfold Obligations.ExitAtEndOfMemory
  intro s hr hb
  exact ⟨_, step_of_eip_outside hr hb, rfl, rfl, rfl, rfl, rfl, rfl, rfl, rfl⟩

/-! ## A decoded instruction -/

/-- With the bytes `pre` read before the cursor `c`, the instruction `i` that is answered at the cursor
`d` is well-formed, and its encoding is what has been read. -/
def ReadAs (pre : List Byte) (c : Cursor) (i : Instr) (d : Cursor) : Prop :=
  i.wf = true ∧ pre ++ c.rest = encode i ++ d.rest ∧ d.pos + pre.length = c.pos + (encode i).length

theorem readAs_of_encode_eq {pre : List Byte} {i : Instr} (c : Cursor) (hw : i.wf = true)
    (he : encode i = pre) : ReadAs pre c i c := by
  subst he
  exact ⟨hw, rfl, rfl⟩

/-- Bytes read at the cursor join those read before it. -/
theorem readAs_of_read {pre bs : List Byte} {c c' d : Cursor} {i : Instr} (hrest : c.rest = bs ++ c'.rest)
    (hpos : c'.pos = c.pos + bs.length) (h : ReadAs (pre ++ bs) c' i d) : ReadAs pre c i d := by
  obtain ⟨hw, hbytes, hend⟩ := h
  rw [List.length_append] at hend
  exact ⟨hw, by rw [hrest, ← List.append_assoc, hbytes], by omega⟩

section Formats

variable {pre : List Byte} {c d : Cursor} {i : Instr}

theorem formatOp_readAs {mk : Instr} (hw : mk.wf = true) (he : encode mk = pre)
    (h : formatOp mk c = .ok (i, d)) : ReadAs pre c i d := by
  cases h
  exact readAs_of_encode_eq c hw he

theorem formatI8_readAs {mk : Byte → Instr} (hw : ∀ v, (mk v).wf = true)
    (he : ∀ v, encode (mk v) = pre ++ [v]) (h : formatI8 mk c = .ok (i, d)) : ReadAs pre c i d := by
  obtain ⟨⟨v, c'⟩, hv, h⟩ := bind_ok.1 h
  cases h
  obtain ⟨hrest, hpos⟩ := fetch8_ok hv
  exact readAs_of_read (bs := [v]) hrest hpos (readAs_of_encode_eq _ (hw v) (he v))

theorem formatI32_readAs {mk : Word → Instr} (hw : ∀ v, (mk v).wf = true)
    (he : ∀ v, encode (mk v) = pre ++ bytes32 v) (h : formatI32 mk c = .ok (i, d)) :
    ReadAs pre c i d := by
  obtain ⟨⟨v, c'⟩, hv, h⟩ := bind_ok.1 h
  cases h
  obtain ⟨hrest, hpos⟩ := fetch32_ok hv
  exact readAs_of_read hrest hpos (readAs_of_encode_eq _ (hw v) (he v))

/-- Behind a ModR/M descriptor its bytes have been read too. -/
theorem readAs_of_decodeModRM {c' : Cursor} {x : BitVec 3} {rm : RM}
    (hd : decodeModRM c = .ok (x, rm, c')) (h : rm.wf = true → ReadAs (pre ++ rm.bytes x) c' i d) :
    ReadAs pre c i d := by
  obtain ⟨hwf, hrest, hpos⟩ := decodeModRM_ok hd
  exact readAs_of_read hrest (by rw [hpos, RM.bytes_length, Nat.add_assoc]) (h hwf)

theorem formatModRM_readAs {mk : RM → Reg → Instr} (hw : ∀ rm r, (mk rm r).wf = rm.wf)
    (he : ∀ rm r, encode (mk rm r) = pre ++ rm.bytes r.field) (h : formatModRM mk c = .ok (i, d)) :
    ReadAs pre c i d := by
  obtain ⟨⟨x, rm, c'⟩, hd, h⟩ := bind_ok.1 h
  cases h
  refine readAs_of_decodeModRM hd fun hwf => readAs_of_encode_eq _ ((hw _ _).trans hwf) ?_
  rw [he, Reg.field_ofField]

theorem group83_readAs (h : group83 0x83#8 c = .ok (i, d)) : ReadAs [0x83#8] c i d := by
  obtain ⟨⟨x, rm, c'⟩, hd, h⟩ := bind_ok.1 h
  refine readAs_of_decodeModRM hd fun hwf => ?_
  dsimp only at h
  split at h
  · next hx => subst hx; exact formatI8_readAs (mk := .addRmImm8 rm) (fun _ => hwf) (fun _ => rfl) h
  · split at h
    · next hx => subst hx; exact formatI8_readAs (mk := .subRmImm8 rm) (fun _ => hwf) (fun _ => rfl) h
    · split at h
      · next hx => subst hx; exact formatI8_readAs (mk := .cmpRmImm8 rm) (fun _ => hwf) (fun _ => rfl) h
      · cases h

theorem groupC7_readAs (h : groupC7 0xC7#8 c = .ok (i, d)) : ReadAs [0xC7#8] c i d := by
  obtain ⟨⟨x, rm, c'⟩, hd, h⟩ := bind_ok.1 h
  refine readAs_of_decodeModRM hd fun hwf => ?_
  dsimp only at h
  split at h
  · next hx => subst hx; exact formatI32_readAs (mk := .movRmImm32 rm) (fun _ => hwf) (fun _ => rfl) h
  · cases h

theorem groupFF_readAs (h : groupFF 0xFF#8 c = .ok (i, d)) : ReadAs [0xFF#8] c i d := by
  obtain ⟨⟨x, rm, c'⟩, hd, h⟩ := bind_ok.1 h
  refine readAs_of_decodeModRM hd fun hwf => ?_
  dsimp only at h
  split at h
  · next hx => cases h; subst hx; exact readAs_of_encode_eq _ hwf rfl
  · cases h

/-- An opcode byte of a `+r` family is the family and the register. -/
theorem plusR_ofField (op : Byte) : plusR (op.extractLsb' 3 5) (Reg.ofField (op.extractLsb' 0 3)) = op := by
  revert op; decide

theorem decodePlusR_readAs {op : Byte} (h : decodePlusR op c = .ok (i, d)) : ReadAs [op] c i d := by
  have hop := plusR_ofField op
  simp only [decodePlusR] at h
  split at h
  · next hf => rw [hf] at hop; exact formatI32_readAs (fun _ => rfl) (fun _ => by rw [encode, hop]; rfl) h
  · split at h
    · next hf => rw [hf] at hop; exact formatOp_readAs rfl (by rw [encode, hop]) h
    · split at h
      · next hf => rw [hf] at hop; exact formatOp_readAs rfl (by rw [encode, hop]) h
      · cases h

/-- One case for each row of the dispatch table, in the order of the table: the `+r` families and the
three groups have lemmas of their own, and the other rows are settled by their format. -/
theorem dispatchOp_readAs {op : Byte} (h : dispatchOp op c = .ok (i, d)) : ReadAs [op] c i d := by
  unfold dispatchOp at h
  split at h
  case h_26 => exact decodePlusR_readAs h
  all_goals obtain rfl := byte_of_toNat ‹op.toNat = _›
  case h_14 => exact group83_readAs h
  case h_18 => exact groupC7_readAs h
  case h_25 => exact groupFF_readAs h
  -- 01, 89, 8B
  case h_1 | h_15 | h_16 => exact formatModRM_readAs (fun _ _ => rfl) (fun _ _ => rfl) h
  -- 68, E8, E9
  case h_2 | h_20 | h_21 => exact formatI32_readAs (fun _ => rfl) (fun _ => rfl) h
  -- C3, C9, EC, EE
  case h_17 | h_19 | h_23 | h_24 => exact formatOp_readAs rfl rfl h
  -- 6A, EB and the conditional jumps
  all_goals exact formatI8_readAs (fun _ => rfl) (fun _ => rfl) h

end Formats

/-- Bytes that decode begin with the encoding of the well-formed instruction they decode to, and the
cursor stands behind it. -/
theorem decode_ok {bs : List Byte} {i : Instr} {c : Cursor} (h : decode bs = .ok (i, c)) :
    i.wf = true ∧ bs = encode i ++ c.rest ∧ c.pos = (encode i).length := by
  obtain ⟨⟨op, c'⟩, hop, h⟩ := bind_ok.1 h
  obtain ⟨hrest, hpos⟩ := fetch8_ok hop
  obtain ⟨hw, hbytes, hend⟩ : ReadAs [] ⟨0, bs⟩ i c :=
    readAs_of_read (bs := [op]) hrest hpos (dispatchOp_readAs h)
  exact ⟨hw, hbytes, by simpa using hend⟩

/-- A rejected decoding is one of the three named faults of the loop. -/
theorem decodeFault_cases (s : State) (e : DecodeError) :
    (∃ op, decodeFault s e = .unimplementedOpcode op s.eip) ∨
    (∃ op ext, decodeFault s e = .unimplementedExtension op ext s.eip) ∨
    (∃ a n, decodeFault s e = .boundsError s.eip a n) := by
  cases e with
  | unimplementedOpcode op => exact .inl ⟨op, rfl⟩
  | unimplementedExtension op ext => exact .inr (.inl ⟨op, ext, rfl⟩)
  | truncated offset width => exact .inr (.inr ⟨_, width, rfl⟩)

/-- Settles O19: the fetch window decodes, and then it begins with the encoding of the instruction that
the step runs, or it is rejected, and then the step is the fault of the rejection. -/
theorem decoderIsTotal : Obligations.DecoderIsTotal := by
  unfold Obligations.DecoderIsTotal
  intro s hr hb
  cases hd : decode (fetchWindow s) with
  | ok r =>
    obtain ⟨i, c⟩ := r
    obtain ⟨hw, hbytes, -⟩ := decode_ok hd
    exact .inl ⟨i, hw, bytes_of_fetchWindow hbytes hb, step_of_decode hr hb hd⟩
  | error e =>
    right
    rw [step_of_decode_error hr hb hd]
    simpa only [fault.injEq] using decodeFault_cases s e

end Sys2Proof.Claims

/-! # Decoding what was encoded (30_encoding.md rule R70)

The decoder reads back the encoding of every well-formed instruction. Each format of rule R71 has a lemma
that says what it reads, and the theorem joins one of them to the dispatch on the opcode byte. -/

namespace Sys2Proof

section Formats

variable (p : Nat) (rest : List Byte)

theorem formatI8_cons (mk : Byte → Instr) (v : Byte) :
    formatI8 mk ⟨p, v :: rest⟩ = .ok (mk v, ⟨p + 1, rest⟩) := rfl

theorem formatI32_bytes (mk : Word → Instr) (v : Word) :
    formatI32 mk ⟨p, bytes32 v ++ rest⟩ = .ok (mk v, ⟨p + 4, rest⟩) := by
  rw [formatI32, fetch32_bytes, ok_bind]

variable {rm : RM} (hw : rm.wf = true)
include hw

theorem formatModRM_bytes (mk : RM → Reg → Instr) (r : Reg) :
    formatModRM mk ⟨p, rm.bytes r.field ++ rest⟩ = .ok (mk rm r, ⟨p + 1 + rm.extra, rest⟩) := by
  simp only [formatModRM, decodeModRM_bytes _ _ _ _ hw, ok_bind, Reg.ofField_field]

/-- The `83` group hands the bytes behind the descriptor to the sub-operation of its `reg` field. -/
theorem group83_bytes (op : Byte) (x : BitVec 3) :
    group83 op ⟨p, rm.bytes x ++ rest⟩ =
      if x = 0#3 then formatI8 (.addRmImm8 rm) ⟨p + 1 + rm.extra, rest⟩
      else if x = 5#3 then formatI8 (.subRmImm8 rm) ⟨p + 1 + rm.extra, rest⟩
      else if x = 7#3 then formatI8 (.cmpRmImm8 rm) ⟨p + 1 + rm.extra, rest⟩
      else .error (.unimplementedExtension op x) := by
  rw [group83, decodeModRM_bytes _ _ _ _ hw, ok_bind]

theorem groupC7_bytes (op : Byte) (imm : Word) :
    groupC7 op ⟨p, rm.bytes 0#3 ++ (bytes32 imm ++ rest)⟩ =
      .ok (.movRmImm32 rm imm, ⟨p + 1 + rm.extra + 4, rest⟩) := by
  rw [groupC7, decodeModRM_bytes _ _ _ _ hw, ok_bind]
  exact formatI32_bytes ..

theorem groupFF_bytes (op : Byte) :
    groupFF op ⟨p, rm.bytes 0#3 ++ rest⟩ = .ok (.incRm rm, ⟨p + 1 + rm.extra, rest⟩) := by
  rw [groupFF, decodeModRM_bytes _ _ _ _ hw, ok_bind]
  rfl

end Formats

theorem dispatchOp_movRImm32 (r : Reg) (c : Cursor) :
    dispatchOp (plusR 0b10111#5 r) c = formatI32 (.movRImm32 r) c := by
  cases r <;> rfl

theorem dispatchOp_pushR (r : Reg) (c : Cursor) :
    dispatchOp (plusR 0b01010#5 r) c = formatOp (.pushR r) c := by
  cases r <;> rfl

theorem dispatchOp_popR (r : Reg) (c : Cursor) :
    dispatchOp (plusR 0b01011#5 r) c = formatOp (.popR r) c := by
  cases r <;> rfl

theorem decode_cons (op : Byte) (bs : List Byte) : decode (op :: bs) = dispatchOp op ⟨1, bs⟩ := rfl

/-- The encoding of a well-formed instruction is read back, whatever follows it. -/
theorem decode_encode {i : Instr} (rest : List Byte) (hw : i.wf = true) :
    decode (encode i ++ rest) = .ok (i, ⟨i.length, rest⟩) := by
  cases i with
  | movRImm32 r imm => exact (dispatchOp_movRImm32 r _).trans (formatI32_bytes ..)
  | movRmR rm r => exact formatModRM_bytes 1 rest hw .movRmR r
  | movRRm r rm => exact formatModRM_bytes 1 rest hw (fun rm r => .movRRm r rm) r
  | addRmR rm r => exact formatModRM_bytes 1 rest hw .addRmR r
  | movRmImm32 rm imm =>
    rw [encode, List.cons_append, List.append_assoc, decode_cons, Instr.length,
      show 6 + rm.extra = 1 + 1 + rm.extra + 4 by omega]
    exact groupC7_bytes 1 rest hw 0xC7#8 imm
  | addRmImm8 rm imm | subRmImm8 rm imm | cmpRmImm8 rm imm =>
    rw [encode, List.cons_append, List.append_assoc, decode_cons, Instr.length,
      show 3 + rm.extra = 1 + 1 + rm.extra + 1 by omega]
    exact group83_bytes 1 (imm :: rest) hw 0x83#8 _
  | incRm rm => exact groupFF_bytes 1 rest hw 0xFF#8
  | pushR r => exact dispatchOp_pushR r _
  | popR r => exact dispatchOp_popR r _
  | pushImm32 | jmpRel32 | callRel32 => exact formatI32_bytes ..
  | pushImm8 | jmpRel8 | jo | jno | jc | jnc | jz | jnz | js | jns | jl | jle => exact formatI8_cons ..
  | leave | ret | inAlDx | outDxAl => rfl

end Sys2Proof

/-! # Halting after an instruction, and port output (60_exceptions.md rules R197, R206) -/

namespace Sys2Proof.Machine

open Host.Outcome

/-! ## OUT -/

theorem exec_outDxAl (s : State) :
    exec .outDxAl s = next ((portOut (lo16 (s.reg .edx)) (lo8 (s.reg .eax)) s).advanceEip 1#32) := rfl

/-- A port write leaves everything but the host output. -/
theorem portOut_frame (port : BitVec 16) (b : Byte) (s : State) :
    (portOut port b s).regs = s.regs ∧ (portOut port b s).mem = s.mem ∧ (portOut port b s).eip = s.eip ∧
      (portOut port b s).eflags = s.eflags ∧ (portOut port b s).run = s.run ∧
      (portOut port b s).input = s.input ∧ (portOut port b s).consumed = s.consumed := by
  unfold portOut
  split <;> exact ⟨rfl, rfl, rfl, rfl, rfl, rfl, rfl⟩

/-! ## The run state -/

theorem run_of_writeRM {x : BitVec 3} {rm : RM} {s t : State} {v : Word} (h : writeRM x rm v s = .ok t) :
    t.run = s.run := by
  obtain ⟨-, -, hrun, -⟩ := writeRM_frame h
  exact hrun

theorem run_of_push32 {s t : State} {v : Word} (h : push32 v s = .ok t) : t.run = s.run := by
  obtain ⟨-, -, hrun, -⟩ := push32_frame h
  exact hrun

theorem run_of_pop32 {s t : State} {v : Word} (h : pop32 s = .ok (v, t)) : t.run = s.run := by
  obtain ⟨-, -, rfl⟩ := pop32_ok.1 h
  rfl

theorem run_of_jccRel8 {cc : Cond} {rel : Byte} {s t : State} (h : jccRel8 cc rel s = next t) :
    t.run = s.run := by
  rw [jccRel8_eq, next.injEq] at h
  rw [← h, State.setEip_run]

theorem run_of_portIn {port : BitVec 16} {s t : State} {b : Byte} (h : portIn port s = some (b, t)) :
    t.run = s.run := by
  obtain ⟨-, -, rfl⟩ | ⟨-, -, rfl⟩ := portIn_some.1 h <;> rfl

/-- No instruction changes the run state; only the loop does (R93). -/
theorem run_of_exec {i : Instr} {s t : State} (h : exec i s = next t) : t.run = s.run := by
  cases i with
  | movRImm32 | jmpRel8 | jmpRel32 =>
    cases h
    rfl
  | movRRm | cmpRmImm8 =>
    obtain ⟨v, -, h⟩ := bind_ok.1 (outcomeOf_next.1 h)
    cases h
    rfl
  | movRmR | movRmImm32 =>
    obtain ⟨u, hu, h⟩ := bind_ok.1 (outcomeOf_next.1 h)
    cases h
    exact (run_of_writeRM hu :)
  | addRmR | addRmImm8 | subRmImm8 | incRm =>
    obtain ⟨v, -, h⟩ := bind_ok.1 (outcomeOf_next.1 h)
    obtain ⟨u, hu, h⟩ := bind_ok.1 h
    cases h
    exact (run_of_writeRM hu :)
  | pushR | pushImm32 | pushImm8 | callRel32 =>
    obtain ⟨u, hu, h⟩ := bind_ok.1 (outcomeOf_next.1 h)
    cases h
    exact (run_of_push32 hu :)
  | popR | leave | ret =>
    obtain ⟨⟨v, u⟩, hu, h⟩ := bind_ok.1 (outcomeOf_next.1 h)
    cases h
    exact (run_of_pop32 hu :)
  | jo | jno | jc | jnc | jz | jnz | js | jns | jl | jle => exact run_of_jccRel8 h
  | inAlDx =>
    simp only [exec, execInAlDx] at h
    split at h
    · cases h
    · next hu =>
      cases h
      exact (run_of_portIn hu :)
  | outDxAl =>
    obtain ⟨-, -, -, -, hrun, -⟩ := portOut_frame (lo16 (s.reg .edx)) (lo8 (s.reg .eax)) s
    cases h
    exact hrun

end Sys2Proof.Machine

namespace Sys2Proof.Claims

open Sys2Proof.Machine Host.Outcome

/-- Where the encoding of a well-formed instruction lies at EIP, the step runs that instruction. -/
theorem step_of_bytesAtEip {s : State} {i : Instr} (hr : s.run = .running) (hw : i.wf = true)
    (hbytes : BytesAtEip s (encode i)) : step s = haltTest (exec i s) := by
  obtain ⟨hmin, hmax⟩ := i.length_bounds
  rw [← encode_length] at hmin hmax
  obtain ⟨rest, hwindow⟩ := fetchWindow_of_bytes hbytes hmax
  have hb : s.eip.toNat < s.mem.size := by
    obtain ⟨hfits, -⟩ := hbytes
    omega
  exact step_of_decode hr hb (hwindow ▸ decode_encode rest hw)

/-- Settles O16: the halt test after the instruction replaces the run state where EIP is 0, and otherwise
answers the state of the instruction, which is still running because no instruction ends the run. -/
theorem haltSentinel : Obligations.HaltSentinel := by
  unfold Obligations.HaltSentinel
  refine ⟨fun s i c t hr hb hd he => ?_, fun s i hr _ hw hbytes => step_of_bytesAtEip hr hw hbytes⟩
  have hstep : step s = next (if t.eip = 0#32 then t.setRun .halted else t) := by
    rw [step_of_decode hr hb hd, he, haltTest_next]
  by_cases h0 : t.eip = 0#32
  · rw [if_pos h0] at hstep
    exact ⟨_, hstep, fun _ => rfl, absurd h0, rfl, rfl, rfl, rfl, rfl, rfl, rfl⟩
  · rw [if_neg h0] at hstep
    exact ⟨_, hstep, fun h => absurd h h0, fun _ => (run_of_exec he).trans hr,
      rfl, rfl, rfl, rfl, rfl, rfl, rfl⟩

/-- Settles O54: the frame of the port write and the advance of EIP, and for the output the two cases of
the port. -/
theorem outWritesPortByte : Obligations.OutWritesPortByte := by
  unfold Obligations.OutWritesPortByte
  intro s
  obtain ⟨hregs, hmem, heip, heflags, hrun, hinput, hconsumed⟩ :=
    portOut_frame (lo16 (s.reg .edx)) (lo8 (s.reg .eax)) s
  refine ⟨_, exec_outDxAl s, ?_, ?_, ?_, heflags, hrun, hinput, hconsumed, fun hlive => ?_, fun hother => ?_⟩
  · exact fun r _ => congrArg (Regs.get · r) hregs
  · exact ⟨congrArg Memory.size hmem, fun b => congrArg (Memory.byte · b) hmem⟩
  · rw [State.advanceEip_eip, heip]
  · rw [State.advanceEip_output, show lo16 (s.reg .edx) = livePort from hlive, portOut_live]
    rfl
  · rw [State.advanceEip_output, portOut_other (p := lo16 (s.reg .edx)) _ _ hother]

end Sys2Proof.Claims

/-! # Loading an image (70_reset_and_hazards.md rule R223)

What a successful load answers and when it fails, then the bytes of the loaded memory and the frame. -/

namespace Sys2Proof.Machine

/-- A load writes the bytes of the image, or the image does not fit. -/
theorem loadImage_ok {s t : State} {image : List Byte} {addr : Word} :
    s.loadImage image addr = .ok t ↔ addr.toNat + image.length ≤ s.mem.size ∧
      t = s.setMem (s.mem.setBytes addr.toNat image) := by
  unfold State.loadImage
  split
  · next hb => simp [(inBounds_iff ..).1 hb, eq_comm]
  · next hb => simp [mt (inBounds_iff ..).2 hb]

theorem loadImage_error {s : State} {image : List Byte} {addr : Word} {e : ConfigError} :
    s.loadImage image addr = .error e ↔ s.mem.size < addr.toNat + image.length ∧
      e = .imageDoesNotFit := by
  unfold State.loadImage
  split
  · next hb => simp [(inBounds_iff ..).1 hb]
  · next hb => simp [Nat.not_le.1 (mt (inBounds_iff ..).2 hb), eq_comm]

end Sys2Proof.Machine

namespace Sys2Proof.Claims

open Sys2Proof.Machine

section Load

variable {s t : State} {image : List Byte} {addr : Word}

theorem byte_of_loadImage {k : Nat} {b : Byte} (h : s.loadImage image addr = .ok t)
    (hk : image[k]? = some b) : t.mem.byte (addr.toNat + k) = b := by
  obtain ⟨-, rfl⟩ := loadImage_ok.1 h
  exact Memory.byte_setBytes_inside _ hk

theorem bytesKeptOutside_of_loadImage (h : s.loadImage image addr = .ok t) :
    BytesKeptOutside addr.toNat image.length s t := by
  obtain ⟨-, rfl⟩ := loadImage_ok.1 h
  exact ⟨Memory.setBytes_size .., fun _ hb => Memory.byte_setBytes_outside _ hb⟩

/-- Loading changes no part of the state but memory. -/
theorem kept_of_loadImage (h : s.loadImage image addr = .ok t) :
    RegsKept [] s t ∧ t.eip = s.eip ∧ t.eflags = s.eflags ∧ HostKept s t := by
  obtain ⟨-, rfl⟩ := loadImage_ok.1 h
  exact ⟨fun _ _ => rfl, rfl, rfl, rfl, rfl, rfl, rfl⟩

end Load

/-- Settles O3: an image that fits is loaded, with the bytes and the frame that the lemmas above give,
and one that does not fit is refused. -/
theorem loadImageCopiesExactlyTheImage : Obligations.LoadImageCopiesExactlyTheImage := by
  unfold Obligations.LoadImageCopiesExactlyTheImage
  refine fun s image addr => ⟨fun hfits => ?_, fun hbig => loadImage_error.2 ⟨hbig, rfl⟩⟩
  have hload : s.loadImage image addr = .ok _ := loadImage_ok.2 ⟨hfits, rfl⟩
  exact ⟨_, hload, fun _ _ hk => byte_of_loadImage hload hk, bytesKeptOutside_of_loadImage hload,
    kept_of_loadImage hload⟩

end Sys2Proof.Claims

/-! # What a step keeps (10_state.md rules R28, R31, R32, R36)

Every instruction but IN and OUT keeps the host streams, and every instruction keeps the size and the
canonical form of memory and the reserved bits of EFLAGS. The invariant, the frame of a step and the rule
about the ports are read off from these facts. -/

namespace Sys2Proof.Machine

open Host.Outcome

/-! ## IN -/

/-- IN completes when the port answers, and puts the byte into AL (R181). -/
theorem exec_inAlDx_next {s t : State} :
    exec .inAlDx s = next t ↔ ∃ b u, portIn (lo16 (s.reg .edx)) s = some (b, u) ∧
      t = (u.setReg .eax (withLo8 (u.reg .eax) b)).advanceEip 1#32 := by
  simp only [exec, execInAlDx]
  cases portIn (lo16 (s.reg .edx)) s with
  | none => simp
  | some p => simp [Prod.ext_iff, eq_comm]

theorem exec_inAlDx_refused {s : State} {r : Refusal} :
    exec .inAlDx s = refused r ↔ portIn (lo16 (s.reg .edx)) s = none ∧ r = .blockedOnInput := by
  simp only [exec, execInAlDx]
  cases portIn (lo16 (s.reg .edx)) s with
  | none => simp [eq_comm]
  | some p => simp

/-! ## Memory and the host streams -/

/-- Memory keeps its size and its canonical form, and the host streams are as they were. -/
structure FrameKept (s t : State) : Prop where
  size : t.mem.size = s.mem.size
  wf : s.mem.wf → t.mem.wf
  input : t.input = s.input
  consumed : t.consumed = s.consumed
  output : t.output = s.output

theorem FrameKept.of_eq {s t : State} (hmem : t.mem = s.mem) (hinput : t.input = s.input)
    (hconsumed : t.consumed = s.consumed) (houtput : t.output = s.output) : FrameKept s t :=
  ⟨congrArg Memory.size hmem, fun hw => hmem ▸ hw, hinput, hconsumed, houtput⟩

theorem frameKept_of_writeRM {x : BitVec 3} {rm : RM} {s t : State} {v : Word}
    (h : writeRM x rm v s = .ok t) : FrameKept s t := by
  obtain ⟨-, -, -, hinput, hconsumed, houtput, hsize, hwf⟩ := writeRM_frame h
  exact ⟨hsize, hwf, hinput, hconsumed, houtput⟩

theorem frameKept_of_push32 {s t : State} {v : Word} (h : push32 v s = .ok t) : FrameKept s t := by
  obtain ⟨-, -, -, hinput, hconsumed, houtput, hsize, hwf⟩ := push32_frame h
  exact ⟨hsize, hwf, hinput, hconsumed, houtput⟩

theorem frameKept_of_pop32 {s t : State} {v : Word} (h : pop32 s = .ok (v, t)) : FrameKept s t := by
  obtain ⟨-, -, rfl⟩ := pop32_ok.1 h
  exact .of_eq rfl rfl rfl rfl

theorem frameKept_of_jccRel8 {cc : Cond} {rel : Byte} {s t : State} (h : jccRel8 cc rel s = next t) :
    FrameKept s t := by
  rw [jccRel8_eq, next.injEq] at h
  subst h
  exact .of_eq rfl rfl rfl rfl

/-- Only the port instructions reach the host streams (R32). -/
theorem frameKept_of_exec {i : Instr} {s t : State} (hin : i ≠ .inAlDx) (hout : i ≠ .outDxAl)
    (h : exec i s = next t) : FrameKept s t := by
  cases i with
  | movRImm32 | jmpRel8 | jmpRel32 =>
    cases h
    exact .of_eq rfl rfl rfl rfl
  | movRRm | cmpRmImm8 =>
    obtain ⟨v, -, h⟩ := bind_ok.1 (outcomeOf_next.1 h)
    cases h
    exact .of_eq rfl rfl rfl rfl
  | movRmR | movRmImm32 =>
    obtain ⟨u, hu, h⟩ := bind_ok.1 (outcomeOf_next.1 h)
    obtain ⟨hsize, hwf, hinput, hconsumed, houtput⟩ := frameKept_of_writeRM hu
    cases h
    exact ⟨hsize, hwf, hinput, hconsumed, houtput⟩
  | addRmR | addRmImm8 | subRmImm8 | incRm =>
    obtain ⟨v, -, h⟩ := bind_ok.1 (outcomeOf_next.1 h)
    obtain ⟨u, hu, h⟩ := bind_ok.1 h
    obtain ⟨hsize, hwf, hinput, hconsumed, houtput⟩ := frameKept_of_writeRM hu
    cases h
    exact ⟨hsize, hwf, hinput, hconsumed, houtput⟩
  | pushR | pushImm32 | pushImm8 | callRel32 =>
    obtain ⟨u, hu, h⟩ := bind_ok.1 (outcomeOf_next.1 h)
    obtain ⟨hsize, hwf, hinput, hconsumed, houtput⟩ := frameKept_of_push32 hu
    cases h
    exact ⟨hsize, hwf, hinput, hconsumed, houtput⟩
  | popR | leave | ret =>
    obtain ⟨⟨v, u⟩, hu, h⟩ := bind_ok.1 (outcomeOf_next.1 h)
    obtain ⟨hsize, hwf, hinput, hconsumed, houtput⟩ := frameKept_of_pop32 hu
    cases h
    exact ⟨hsize, hwf, hinput, hconsumed, houtput⟩
  | jo | jno | jc | jnc | jz | jnz | js | jns | jl | jle => exact frameKept_of_jccRel8 h
  | inAlDx => exact absurd rfl hin
  | outDxAl => exact absurd rfl hout

/-- Memory keeps its size and its canonical form and the host's input is as it was; at most one byte of
it is consumed, and at most one byte is appended to the output. -/
structure StreamsAdvance (s t : State) : Prop where
  size : t.mem.size = s.mem.size
  wf : s.mem.wf → t.mem.wf
  input : t.input = s.input
  consumed : t.consumed = s.consumed ∨ t.consumed = s.consumed + 1 ∧ s.consumed < s.input.length
  output : t.output = s.output ∨ ∃ b, t.output = s.output ++ [b]

theorem FrameKept.streamsAdvance {s t : State} (h : FrameKept s t) : StreamsAdvance s t :=
  ⟨h.size, h.wf, h.input, .inl h.consumed, .inl h.output⟩

theorem streamsAdvance_of_portIn {p : BitVec 16} {s t : State} {b : Byte}
    (h : portIn p s = some (b, t)) : StreamsAdvance s t := by
  obtain ⟨-, hb, rfl⟩ | ⟨-, -, rfl⟩ := portIn_some.1 h
  · exact ⟨rfl, id, rfl, .inr ⟨rfl, (List.getElem?_eq_some_iff.1 hb).1⟩, .inl rfl⟩
  · exact (FrameKept.of_eq rfl rfl rfl rfl).streamsAdvance

theorem streamsAdvance_portOut (p : BitVec 16) (b : Byte) (s : State) :
    StreamsAdvance s (portOut p b s) := by
  by_cases hp : p = livePort
  · rw [hp, portOut_live]
    exact ⟨rfl, id, rfl, .inl rfl, .inr ⟨b, rfl⟩⟩
  · rw [portOut_other b s hp]
    exact (FrameKept.of_eq rfl rfl rfl rfl).streamsAdvance

theorem streamsAdvance_of_exec {i : Instr} {s t : State} (h : exec i s = next t) :
    StreamsAdvance s t := by
  by_cases hin : i = .inAlDx
  · subst hin
    obtain ⟨b, u, hu, rfl⟩ := exec_inAlDx_next.1 h
    obtain ⟨hsize, hwf, hinput, hconsumed, houtput⟩ := streamsAdvance_of_portIn hu
    exact ⟨hsize, hwf, hinput, hconsumed, houtput⟩
  · by_cases hout : i = .outDxAl
    · subst hout
      rw [exec_outDxAl, next.injEq] at h
      subst h
      obtain ⟨hsize, hwf, hinput, hconsumed, houtput⟩ :=
        streamsAdvance_portOut (lo16 (s.reg .edx)) (lo8 (s.reg .eax)) s
      exact ⟨hsize, hwf, hinput, hconsumed, houtput⟩
    · exact (frameKept_of_exec hin hout h).streamsAdvance

/-! ## The reserved flags -/

/-- The bits of EFLAGS after the subtraction-flag routine (R120). -/
theorem getLsbD_subFlags (a b f : Word) (k : Nat) : (subFlags a b f).getLsbD k =
    if k = 11 then a.getLsbD 31 != b.getLsbD 31 && (a - b).getLsbD 31 != a.getLsbD 31
    else if k = 7 then (a - b).getLsbD 31
    else if k = 6 then a - b == 0#32
    else if k = 0 then decide (a.toNat < b.toNat)
    else f.getLsbD k := by
  simp only [subFlags, getLsbD_putBit _ _ _ (show 0 < 32 by decide),
    getLsbD_putBit _ _ _ (show 6 < 32 by decide), getLsbD_putBit _ _ _ (show 7 < 32 by decide),
    getLsbD_putBit _ _ _ (show 11 < 32 by decide), wideDifference_low, wideDifference_borrow]

/-- The subtraction-flag routine writes none of the reserved bits (R28). -/
theorem subFlags_reserved (a b f : Word) : subFlags a b f &&& reservedFlags = f &&& reservedFlags := by
  have hbits : ∀ j ∈ [0, 6, 7, 11], reservedFlags.getLsbD j = false := by decide
  apply BitVec.eq_of_getLsbD_eq
  intro k _
  rw [BitVec.getLsbD_and, BitVec.getLsbD_and]
  by_cases hk : k ∈ [0, 6, 7, 11]
  · rw [hbits k hk, Bool.and_false, Bool.and_false]
  · simp only [List.mem_cons, List.not_mem_nil, or_false, not_or] at hk
    obtain ⟨h0, h6, h7, h11⟩ := hk
    rw [getLsbD_subFlags, if_neg h11, if_neg h7, if_neg h6, if_neg h0]

end Sys2Proof.Machine

namespace Sys2Proof.Claims

open Sys2Proof.Machine Host.Outcome

theorem reserved_of_exec {i : Instr} {s t : State} (h : exec i s = next t) :
    t.eflags &&& reservedFlags = s.eflags &&& reservedFlags := by
  cases hw : writesFlags i with
  | false => rw [eflags_of_not_writesFlags hw h]
  | true =>
    obtain ⟨op1, op2, hf⟩ := eflags_of_writesFlags hw h
    rw [hf, subFlags_reserved]

/-! ## The invariant -/

theorem inv_of_exec {i : Instr} {s t : State} (hi : s.Inv) (hr : s.run = .running)
    (h : exec i s = next t) : t.Inv := by
  obtain ⟨hsize, hwf, hinput, hconsumed, -⟩ := streamsAdvance_of_exec h
  have hrun : t.run = .running := (run_of_exec h).trans hr
  have hbound := hi.input
  exact {
    memory := hwf hi.memory
    sizePositive := hsize ▸ hi.sizePositive
    sizeBound := hsize ▸ hi.sizeBound
    reserved := (reserved_of_exec h).trans hi.reserved
    input := by rw [hinput]; omega
    halted := fun hh => by simp [hrun] at hh
    exited := fun hx => by simp [hrun] at hx }

theorem inv_setRun_halted {s : State} (hi : s.Inv) (h0 : s.eip = 0#32) : (s.setRun .halted).Inv :=
  { hi with halted := fun _ => h0, exited := fun hx => by cases hx }

theorem inv_setRun_exited {s : State} (hi : s.Inv) (hb : s.mem.size ≤ s.eip.toNat) :
    (s.setRun .exited).Inv :=
  { hi with halted := fun hh => (by cases hh), exited := fun _ => hb }

/-- Settles O26: an instruction keeps every clause, and the loop sets the run state only where EIP is what
that run state asks for. -/
theorem stepKeepsInvariant : Obligations.StepKeepsInvariant := by
  unfold Obligations.StepKeepsInvariant
  intro s t hi h
  obtain ⟨hr, -, i, c, u, -, hu, rfl⟩ | ⟨-, hb, rfl⟩ | ⟨-, rfl⟩ := step_next_cases h
  · have hinv : u.Inv := inv_of_exec hi hr hu
    split
    · next h0 => exact inv_setRun_halted hinv h0
    · exact hinv
  · exact inv_setRun_exited hi hb
  · exact hi

/-- Settles O27: the instruction advances the streams by at most one byte, and the loop changes nothing
but the run state. -/
theorem stepKeepsSizeAndStreams : Obligations.StepKeepsSizeAndStreams := by
  unfold Obligations.StepKeepsSizeAndStreams
  intro s t h
  obtain ⟨-, -, i, c, u, -, hu, rfl⟩ | ⟨-, -, rfl⟩ | ⟨-, rfl⟩ := step_next_cases h
  · obtain ⟨hsize, -, hinput, hconsumed, houtput⟩ := streamsAdvance_of_exec hu
    split <;> exact ⟨hsize, hinput, hconsumed, houtput⟩
  · exact ⟨rfl, rfl, .inl rfl, .inl rfl⟩
  · exact ⟨rfl, rfl, .inl rfl, .inl rfl⟩

/-- Settles O30: IN and OUT on a port other than the live one neither consume nor write a byte, and no
other instruction reaches a port. -/
theorem onlyPortInstructionsReachPorts : Obligations.OnlyPortInstructionsReachPorts := by
  unfold Obligations.OnlyPortInstructionsReachPorts
  intro i s t h hport
  by_cases hin : i = .inAlDx
  · subst hin
    have hother : lo16 (s.reg .edx) ≠ livePort := hport.resolve_left fun hne => hne.1 rfl
    obtain ⟨b, u, hu, rfl⟩ := exec_inAlDx_next.1 h
    obtain ⟨hlive, -⟩ | ⟨-, -, rfl⟩ := portIn_some.1 hu
    · exact absurd hlive hother
    · exact ⟨rfl, rfl, rfl⟩
  · by_cases hout : i = .outDxAl
    · subst hout
      have hother : lo16 (s.reg .edx) ≠ livePort := hport.resolve_left fun hne => hne.2 rfl
      rw [exec_outDxAl, portOut_other _ _ hother, next.injEq] at h
      subst h
      exact ⟨rfl, rfl, rfl⟩
    · obtain ⟨-, -, hinput, hconsumed, houtput⟩ := frameKept_of_exec hin hout h
      exact ⟨hinput, hconsumed, houtput⟩

/-! ## The two round trips of the decoder, and the step at EIP -/

/-- Settles O9, which is `decode_encode`. -/
theorem decodeOfEncodeIsIdentity : Obligations.DecodeOfEncodeIsIdentity := by
  unfold Obligations.DecodeOfEncodeIsIdentity
  exact fun i rest hw => decode_encode rest hw

/-- Settles O10, which is `decode_ok`. -/
theorem decodedBytesAreTheEncoding : Obligations.DecodedBytesAreTheEncoding := by
  unfold Obligations.DecodedBytesAreTheEncoding
  exact fun bs i c h => decode_ok h

/-- Settles O15, which is `step_of_bytesAtEip`: the fetch window starts with the encoding, and the decoder
reads that back. -/
theorem stepRunsInstructionAtEip : Obligations.StepRunsInstructionAtEip := by
  unfold Obligations.StepRunsInstructionAtEip
  exact fun s i hr hw hbytes => step_of_bytesAtEip hr hw hbytes

end Sys2Proof.Claims

/-! # Rejected bytes (30_encoding.md rules R88, R91, R92, 60_exceptions.md rules R193 to R196)

The decoder rejects an opcode byte that is not registered, a group opcode with a `reg` field that is not
registered, and a read past the end of the bytes. The first two are said by the bytes themselves; for the
third, every reader of the decoder is shown to fail only past the end of its bytes. -/

namespace Sys2Proof.Claims

open Sys2Proof.Machine Host.Outcome

/-! ## Readers fail only past the end of their bytes -/

/-- `e` names a read of one or four bytes that passes the end of the bytes behind the cursor `c`, and ends
at most `n` bytes behind `c`. -/
def CutShort (n : Nat) (c : Cursor) (e : DecodeError) : Prop :=
  ∃ offset width, e = .truncated offset width ∧ (width = 1 ∨ width = 4) ∧
    c.pos + c.rest.length < offset + width ∧ offset + width ≤ c.pos + n

/-- From `c` to `d`, at most `n` bytes were read and the end of the bytes did not move. -/
def Advances (n : Nat) (c d : Cursor) : Prop :=
  d.pos + d.rest.length = c.pos + c.rest.length ∧ d.pos ≤ c.pos + n

/-- A reader of at most `n` bytes, which fails only for want of them. -/
def Reads {α : Type} (n : Nat) (x : Cursor → Except DecodeError (α × Cursor)) : Prop :=
  ∀ c, (∀ e, x c = .error e → CutShort n c e) ∧ ∀ a d, x c = .ok (a, d) → Advances n c d

theorem CutShort.mono {m n : Nat} {c : Cursor} {e : DecodeError} (h : CutShort m c e) (hmn : m ≤ n) :
    CutShort n c e := by
  obtain ⟨offset, width, he, hwidth, hpast, hend⟩ := h
  exact ⟨offset, width, he, hwidth, hpast, by omega⟩

theorem CutShort.of_advances {m n : Nat} {c d : Cursor} {e : DecodeError} (h : CutShort n d e)
    (hd : Advances m c d) : CutShort (m + n) c e := by
  obtain ⟨hsum, hpos⟩ := hd
  obtain ⟨offset, width, he, hwidth, hpast, hend⟩ := h
  exact ⟨offset, width, he, hwidth, by omega, by omega⟩

theorem Advances.trans {m n : Nat} {c d f : Cursor} (h : Advances m c d) (h' : Advances n d f) :
    Advances (m + n) c f := by
  obtain ⟨hsum, hpos⟩ := h
  obtain ⟨hsum', hpos'⟩ := h'
  exact ⟨by omega, by omega⟩

section Readers

variable {α β : Type} {m n : Nat}

theorem Reads.mono {x : Cursor → Except DecodeError (α × Cursor)} (h : Reads m x) (hmn : m ≤ n) :
    Reads n x := fun c =>
  ⟨fun e he => ((h c).1 e he).mono hmn, fun a d hd => by
    obtain ⟨hsum, hpos⟩ := (h c).2 a d hd
    exact ⟨hsum, by omega⟩⟩

theorem reads_pure (a : α) : Reads n fun c => .ok (a, c) := fun c =>
  ⟨fun e he => (by cases he), fun b d hd => by cases hd; exact ⟨rfl, by omega⟩⟩

/-- A reader followed by another. -/
theorem reads_bind {x : Cursor → Except DecodeError (α × Cursor)}
    {f : α → Cursor → Except DecodeError (β × Cursor)} (hx : Reads m x) (hf : ∀ a, Reads n (f a)) :
    Reads (m + n) fun c => x c >>= fun p => f p.1 p.2 := by
  refine fun c => ⟨fun e he => ?_, fun b d hd => ?_⟩
  · obtain he | ⟨⟨a, d⟩, hxd, he⟩ := bind_error.1 he
    · exact ((hx c).1 e he).mono (by omega)
    · exact ((hf a d).1 e he).of_advances ((hx c).2 a d hxd)
  · obtain ⟨⟨a, c'⟩, hxc, hd⟩ := bind_ok.1 hd
    exact ((hx c).2 a c' hxc).trans ((hf a c').2 b d hd)

theorem reads_ite {p : Prop} [Decidable p] {x y : Cursor → Except DecodeError (α × Cursor)}
    (hx : p → Reads n x) (hy : ¬ p → Reads n y) : Reads n fun c => if p then x c else y c := by
  by_cases hp : p
  · simpa only [if_pos hp] using hx hp
  · simpa only [if_neg hp] using hy hp

end Readers

theorem fetch8_reads : Reads 1 fetch8 := by
  refine fun c => ⟨fun e he => ?_, fun b d hd => ?_⟩
  · obtain ⟨p, bs⟩ := c
    cases bs with
    | nil => cases he; exact ⟨p, 1, rfl, .inl rfl, by simp, Nat.le_refl _⟩
    | cons b bs => cases he
  · obtain ⟨hrest, hpos⟩ := fetch8_ok hd
    exact ⟨by rw [hrest, hpos, List.length_cons]; omega, by omega⟩

/-- A four-byte read of fewer bytes is rejected at the cursor. -/
theorem fetch32_short {c : Cursor} (h : c.rest.length < 4) : fetch32 c = .error (.truncated c.pos 4) := by
  obtain ⟨p, bs⟩ := c
  match bs with
  | [] | [_] | [_, _] | [_, _, _] => rfl
  | _ :: _ :: _ :: _ :: _ => exact absurd h (by simp)

theorem fetch32_reads : Reads 4 fetch32 := by
  refine fun c => ⟨fun e he => ?_, fun v d hd => ?_⟩
  · have hshort : c.rest.length < 4 := (fetch32_error he).1
    rw [fetch32_short hshort] at he
    cases he
    exact ⟨c.pos, 4, rfl, .inr rfl, by omega, Nat.le_refl _⟩
  · obtain ⟨hrest, hpos⟩ := fetch32_ok hd
    exact ⟨by rw [hrest, hpos, List.length_append, bytes32_length]; omega, by omega⟩

theorem decodeSib_reads (mod : BitVec 2) : Reads 5 (decodeSib mod) :=
  reads_bind fetch8_reads fun sib =>
    reads_ite (fun _ => reads_bind fetch32_reads fun d => reads_pure (n := 0) (MemOp.sibDisp32 sib d))
      fun _ => reads_ite
        (fun _ => reads_bind (n := 3) fetch8_reads fun d => reads_pure (MemOp.sibDisp8 sib d))
        fun _ => reads_pure (MemOp.sib sib)

theorem decodeBase_reads (mod : BitVec 2) (rm : BitVec 3) : Reads 5 (decodeBase mod rm) :=
  reads_ite
    (fun _ => reads_bind fetch32_reads fun d => reads_pure (n := 1) (MemOp.baseDisp32 (Reg.ofField rm) d))
    fun _ => reads_ite
      (fun _ => reads_bind (n := 4) fetch8_reads fun d => reads_pure (MemOp.baseDisp8 (Reg.ofField rm) d))
      fun _ => reads_ite (fun _ => reads_bind fetch32_reads fun d => reads_pure (n := 1) (MemOp.abs d))
        fun _ => reads_pure (MemOp.base (Reg.ofField rm))

theorem formatI8_reads (mk : Byte → Instr) : Reads 1 (formatI8 mk) :=
  reads_bind (n := 0) fetch8_reads fun v => reads_pure (mk v)

theorem formatI32_reads (mk : Word → Instr) : Reads 4 (formatI32 mk) :=
  reads_bind (n := 0) fetch32_reads fun v => reads_pure (mk v)

theorem decodeModRM_cutShort {c : Cursor} {e : DecodeError} (h : decodeModRM c = .error e) :
    CutShort 6 c e := by
  obtain h | ⟨⟨b, d⟩, hb, h⟩ := bind_error.1 h
  · exact ((fetch8_reads c).1 e h).mono (by omega)
  · have hadv : Advances 1 c d := (fetch8_reads c).2 b d hb
    dsimp only at h
    split at h
    · cases h
    · split at h
      · exact ((decodeSib_reads _ d).1 e (bind_ok_eq_error.1 h)).of_advances hadv
      · exact ((decodeBase_reads _ _ d).1 e (bind_ok_eq_error.1 h)).of_advances hadv

theorem decodeModRM_advances {c d : Cursor} {x : BitVec 3} {rm : RM}
    (h : decodeModRM c = .ok (x, rm, d)) : Advances 6 c d := by
  obtain ⟨-, hrest, hpos⟩ := decodeModRM_ok h
  have hle := rm.extra_le
  exact ⟨by rw [hrest, hpos, List.length_append, RM.bytes_length]; omega, by omega⟩

/-! ## The three ways to be rejected -/

/-- Why the handler of `op` rejects the bytes at the cursor `c` behind the opcode byte. -/
inductive Rejected (op : Byte) (c : Cursor) (e : DecodeError) : Prop where
  | cutShort (h : CutShort 10 c e)
  | opcode (hop : op ∉ registeredOpcodes) (he : e = .unimplementedOpcode op)
  | extension {x : BitVec 3} {rm : RM} {d : Cursor} (hop : op ∈ [0x83#8, 0xC7#8, 0xFF#8])
      (hd : decodeModRM c = .ok (x, rm, d)) (hx : x ∉ registeredExtensions op)
      (he : e = .unimplementedExtension op x)

section Handlers

variable {c : Cursor} {e : DecodeError}

theorem formatI8_rejected {op : Byte} {mk : Byte → Instr} (h : formatI8 mk c = .error e) :
    Rejected op c e :=
  .cutShort (((formatI8_reads mk c).1 e h).mono (by omega))

theorem formatI32_rejected {op : Byte} {mk : Word → Instr} (h : formatI32 mk c = .error e) :
    Rejected op c e :=
  .cutShort (((formatI32_reads mk c).1 e h).mono (by omega))

theorem formatModRM_rejected {op : Byte} {mk : RM → Reg → Instr} (h : formatModRM mk c = .error e) :
    Rejected op c e :=
  .cutShort ((decodeModRM_cutShort (bind_ok_eq_error.1 h)).mono (by omega))

theorem rejected_of_descriptor {op : Byte} (h : decodeModRM c = .error e) : Rejected op c e :=
  .cutShort ((decodeModRM_cutShort h).mono (by omega))

/-- An immediate behind the descriptor is cut short. -/
theorem rejected_of_immediate {op : Byte} {d : Cursor} {x : BitVec 3} {rm : RM} {n : Nat}
    (hd : decodeModRM c = .ok (x, rm, d)) (hn : n ≤ 4) (h : CutShort n d e) : Rejected op c e :=
  .cutShort ((h.of_advances (decodeModRM_advances hd)).mono (by omega))

theorem group83_rejected (h : group83 0x83#8 c = .error e) : Rejected 0x83#8 c e := by
  obtain h | ⟨⟨x, rm, d⟩, hd, h⟩ := bind_error.1 h
  · exact rejected_of_descriptor h
  have himm (mk : Byte → Instr) (h : formatI8 mk d = .error e) : Rejected 0x83#8 c e :=
    rejected_of_immediate hd (by omega) ((formatI8_reads mk d).1 e h)
  dsimp only at h
  split at h
  · exact himm _ h
  · next h0 =>
    split at h
    · exact himm _ h
    · next h5 =>
      split at h
      · exact himm _ h
      · next h7 =>
        cases h
        exact .extension (by decide) hd (by simp [registeredExtensions, h0, h5, h7]) rfl

theorem groupC7_rejected (h : groupC7 0xC7#8 c = .error e) : Rejected 0xC7#8 c e := by
  obtain h | ⟨⟨x, rm, d⟩, hd, h⟩ := bind_error.1 h
  · exact rejected_of_descriptor h
  dsimp only at h
  split at h
  · exact rejected_of_immediate hd (by omega) ((formatI32_reads _ d).1 e h)
  · next h0 =>
    cases h
    exact .extension (by decide) hd (by simp [registeredExtensions, h0]) rfl

theorem groupFF_rejected (h : groupFF 0xFF#8 c = .error e) : Rejected 0xFF#8 c e := by
  obtain h | ⟨⟨x, rm, d⟩, hd, h⟩ := bind_error.1 h
  · exact rejected_of_descriptor h
  dsimp only at h
  split at h
  · cases h
  · next h0 =>
    cases h
    exact .extension (by decide) hd (by simp [registeredExtensions, h0]) rfl

/-- The upper five bits of the opcode bytes of the `+r` families. -/
def plusRFamilies : List (BitVec 5) := [0b10111#5, 0b01010#5, 0b01011#5]

theorem decodePlusR_eq_error {op : Byte} (hf : op.extractLsb' 3 5 ∉ plusRFamilies) :
    decodePlusR op c = .error (.unimplementedOpcode op) := by
  simp only [plusRFamilies, List.mem_cons, List.not_mem_nil, or_false, not_or] at hf
  obtain ⟨hmov, hpush, hpop⟩ := hf
  simp only [decodePlusR, if_neg hmov, if_neg hpush, if_neg hpop]

theorem registered_of_family : ∀ op : Byte,
    op.extractLsb' 3 5 ∈ plusRFamilies → op ∈ registeredOpcodes := by decide

theorem dispatchOp_of_not_registered {op : Byte} (hop : op ∉ registeredOpcodes) :
    dispatchOp op c = .error (.unimplementedOpcode op) := by
  unfold dispatchOp
  split
  case h_26 => exact decodePlusR_eq_error (mt (registered_of_family op) hop)
  all_goals
    obtain rfl := byte_of_toNat ‹op.toNat = _›
    exact absurd (by decide) hop

theorem decodePlusR_rejected {op : Byte} (hf : op.extractLsb' 3 5 ∈ plusRFamilies)
    (h : decodePlusR op c = .error e) : Rejected op c e := by
  simp only [decodePlusR] at h
  split at h
  · exact formatI32_rejected h
  · next hmov =>
    split at h
    · cases h
    · next hpush =>
      split at h
      · cases h
      · next hpop => simp [plusRFamilies, hmov, hpush, hpop] at hf

/-- The opcode bytes with a row of their own in the dispatch table. -/
def singleOpcodes : List Nat :=
  [0x01, 0x68, 0x6A, 0x70, 0x71, 0x72, 0x73, 0x74, 0x75, 0x78, 0x79, 0x7C, 0x7E, 0x83, 0x89, 0x8B, 0xC3,
   0xC7, 0xC9, 0xE8, 0xE9, 0xEB, 0xEC, 0xEE, 0xFF]

/-- Every registered opcode byte belongs to a `+r` family or has a row of its own. -/
theorem registered_cases : ∀ op ∈ registeredOpcodes,
    op.extractLsb' 3 5 ∈ plusRFamilies ∨ op.toNat ∈ singleOpcodes :=
  List.all_iff_forall_prop.1 (by decide)

/-- One case for each row of the dispatch table, as in `dispatchOp_readAs`. -/
theorem dispatchOp_rejected {op : Byte} (h : dispatchOp op c = .error e) : Rejected op c e := by
  by_cases hop : op ∈ registeredOpcodes
  case neg =>
    rw [dispatchOp_of_not_registered hop] at h
    cases h
    exact .opcode hop rfl
  unfold dispatchOp at h
  split at h
  case h_26 =>
    obtain hf | hsingle := registered_cases op hop
    · exact decodePlusR_rejected hf h
    · simp_all [singleOpcodes]
  all_goals obtain rfl := byte_of_toNat ‹op.toNat = _›
  case h_14 => exact group83_rejected h
  case h_18 => exact groupC7_rejected h
  case h_25 => exact groupFF_rejected h
  -- 01, 89, 8B
  case h_1 | h_15 | h_16 => exact formatModRM_rejected h
  -- 68, E8, E9
  case h_2 | h_20 | h_21 => exact formatI32_rejected h
  -- C3, C9, EC, EE
  case h_17 | h_19 | h_23 | h_24 => cases h
  -- 6A, EB and the conditional jumps
  all_goals exact formatI8_rejected h

end Handlers

/-! ## The bytes at EIP -/

/-- Where EIP lies in memory the fetch window starts with the byte there. -/
theorem fetchWindow_cons {s : State} (hb : s.eip.toNat < s.mem.size) :
    ∃ rest, fetchWindow s = s.mem.byte s.eip.toNat :: rest ∧
      1 + rest.length = min maxLength (s.mem.size - s.eip.toNat) := by
  have hlen : (fetchWindow s).length = min maxLength (s.mem.size - s.eip.toNat) :=
    Memory.window_length ..
  cases hw : fetchWindow s with
  | nil => rw [hw, List.length_nil, maxLength] at hlen; omega
  | cons b rest =>
    have hget : (fetchWindow s)[0]? = some (s.mem.byte s.eip.toNat) :=
      Memory.window_get _ (by decide) (by omega)
    rw [hw, List.getElem?_cons_zero, Option.some.injEq] at hget
    rw [hw, List.length_cons, Nat.add_comm] at hlen
    exact ⟨rest, by rw [hget], hlen⟩

/-- What the step of a running core does with bytes that its opcode byte's handler rejects. -/
theorem step_of_dispatchOp_error {s : State} {op : Byte} {rest : List Byte} {e : DecodeError}
    (hr : s.run = .running) (hb : s.eip.toNat < s.mem.size) (hw : fetchWindow s = op :: rest)
    (h : dispatchOp op ⟨1, rest⟩ = .error e) : step s = fault (decodeFault s e) :=
  step_of_decode_error hr hb (by rw [hw, decode_cons, h])

/-- Settles O20: the handler of an unregistered opcode byte rejects whatever follows it. -/
theorem unregisteredOpcodeIsFatal : Obligations.UnregisteredOpcodeIsFatal := by
  unfold Obligations.UnregisteredOpcodeIsFatal
  intro s hr hb hop
  obtain ⟨rest, hw, -⟩ := fetchWindow_cons hb
  exact step_of_dispatchOp_error hr hb hw (dispatchOp_of_not_registered hop)

/-- A group opcode reads a descriptor that lies in its bytes, and then rejects an unregistered `reg` field. -/
theorem dispatchOp_extension {op b : Byte} {rest : List Byte} {p : Nat}
    (hop : op ∈ [0x83#8, 0xC7#8, 0xFF#8]) (hx : b.extractLsb' 3 3 ∉ registeredExtensions op)
    (hlen : extraBytes (b.extractLsb' 6 2) (b.extractLsb' 0 3) ≤ rest.length) :
    dispatchOp op ⟨p, b :: rest⟩ = .error (.unimplementedExtension op (b.extractLsb' 3 3)) := by
  obtain ⟨rm, hd, -⟩ := (modRMDescriptorLength p b rest).1 hlen
  simp only [List.mem_cons, List.not_mem_nil, or_false] at hop
  obtain rfl | rfl | rfl := hop
  · have hx' : b.extractLsb' 3 3 ∉ [0#3, 5#3, 7#3] := hx
    simp only [List.mem_cons, List.not_mem_nil, or_false, not_or] at hx'
    obtain ⟨h0, h5, h7⟩ := hx'
    show group83 0x83#8 _ = _
    simp only [group83, hd, ok_bind, if_neg h0, if_neg h5, if_neg h7]
  · have h0 : b.extractLsb' 3 3 ≠ 0#3 := fun h => hx (h ▸ List.mem_cons_self)
    show groupC7 0xC7#8 _ = _
    simp only [groupC7, hd, ok_bind, if_neg h0]
  · have h0 : b.extractLsb' 3 3 ≠ 0#3 := fun h => hx (h ▸ List.mem_cons_self)
    show groupFF 0xFF#8 _ = _
    simp only [groupFF, hd, ok_bind, if_neg h0]

/-- No ModR/M descriptor has more than five bytes behind its first. -/
theorem extraBytes_le (mod : BitVec 2) (rm : BitVec 3) : extraBytes mod rm ≤ 5 := by
  revert mod rm; decide

/-- Settles O21: the descriptor lies in the fetch window, and its `reg` field is checked before any
immediate is read. -/
theorem unregisteredExtensionIsFatal : Obligations.UnregisteredExtensionIsFatal := by
  unfold Obligations.UnregisteredExtensionIsFatal
  intro s op b hr hop hbytes hx hmem
  obtain ⟨rest, hw⟩ := fetchWindow_of_bytes hbytes (by simp [maxLength])
  have hlen : (fetchWindow s).length = min maxLength (s.mem.size - s.eip.toNat) :=
    Memory.window_length ..
  rw [hw, List.length_append, maxLength] at hlen
  have hle := extraBytes_le (b.extractLsb' 6 2) (b.extractLsb' 0 3)
  have henough : extraBytes (b.extractLsb' 6 2) (b.extractLsb' 0 3) ≤ rest.length := by
    simp only [List.length_cons, List.length_nil] at hlen
    omega
  exact step_of_dispatchOp_error hr (by omega) hw (dispatchOp_extension hop hx henough)

/-! ## What a fault says -/

/-- A fault of an instruction whose second byte, where it has one, is `b1`: the address of a SIB operand
was asked for, and `b1` is its ModR/M byte, or four bytes do not lie in memory. -/
def AccessFault (b1 : Option Byte) (s : State) (f : Fault) : Prop :=
  (∃ x m, b1 = some ((RM.mem m).modrm x) ∧ operandAddress m s = none ∧
    f = .decodeErrorSib s.eip ((RM.mem m).modrm x)) ∨
  ∃ a, s.mem.size < a + 4 ∧ f = .boundsError s.eip a 4

section Faults

variable {x : BitVec 3} {rm : RM} {s : State} {v : Word} {f : Fault} {b1 : Option Byte}

theorem accessFault_of_readRM (h : readRM x rm s = .error f) : AccessFault (some (rm.modrm x)) s f := by
  cases rm with
  | reg r => cases h
  | mem m =>
    obtain ⟨ha, rfl⟩ | ⟨a, -, hsize, rfl⟩ := readRM_mem_error.1 h
    · exact .inl ⟨x, m, rfl, ha, rfl⟩
    · exact .inr ⟨_, hsize, rfl⟩

theorem accessFault_of_writeRM (h : writeRM x rm v s = .error f) :
    AccessFault (some (rm.modrm x)) s f := by
  cases rm with
  | reg r => cases h
  | mem m =>
    obtain ⟨ha, rfl⟩ | ⟨a, -, hsize, rfl⟩ := writeRM_mem_error.1 h
    · exact .inl ⟨x, m, rfl, ha, rfl⟩
    · exact .inr ⟨_, hsize, rfl⟩

theorem accessFault_of_push32 (h : push32 v s = .error f) : AccessFault b1 s f := by
  obtain ⟨hsize, rfl⟩ := push32_error.1 h
  exact .inr ⟨_, hsize, rfl⟩

theorem accessFault_of_pop32 (h : pop32 s = .error f) : AccessFault b1 s f := by
  obtain ⟨hsize, rfl⟩ := pop32_error.1 h
  exact .inr ⟨_, hsize, rfl⟩

/-- With nothing that can fail behind it, an access that fails is the fault of the instruction. -/
theorem accessFault_of_bind {α : Type} {y : Except Fault α} {g : α → State}
    (h : outcomeOf (y >>= fun a => .ok (g a)) = fault f) (hy : y = .error f → AccessFault b1 s f) :
    AccessFault b1 s f :=
  hy (bind_ok_eq_error.1 (outcomeOf_fault.1 h))

theorem jccRel8_ne_fault (cc : Cond) (rel : Byte) : jccRel8 cc rel s ≠ fault f := by
  rw [jccRel8_eq]
  exact fun h => by cases h

/-- Every fault of an instruction is one of its accesses. -/
theorem accessFault_of_exec {i : Instr} (h : exec i s = fault f) : AccessFault (encode i)[1]? s f := by
  cases i with
  | movRImm32 | jmpRel8 | jmpRel32 | outDxAl => cases h
  | jo | jno | jc | jnc | jz | jnz | js | jns | jl | jle => exact (jccRel8_ne_fault _ _ h).elim
  | movRRm | cmpRmImm8 => exact accessFault_of_bind h accessFault_of_readRM
  | movRmR | movRmImm32 => exact accessFault_of_bind h accessFault_of_writeRM
  | addRmR | addRmImm8 | subRmImm8 | incRm =>
    obtain h | ⟨v, -, h⟩ := bind_error.1 (outcomeOf_fault.1 h)
    · exact accessFault_of_readRM h
    · exact accessFault_of_writeRM (bind_ok_eq_error.1 h)
  | pushR | pushImm32 | pushImm8 | callRel32 => exact accessFault_of_bind h accessFault_of_push32
  | popR | ret => exact accessFault_of_bind h accessFault_of_pop32
  | leave =>
    obtain ⟨hsize, rfl⟩ := pop32_error.1 (bind_ok_eq_error.1 (outcomeOf_fault.1 h))
    exact .inr ⟨_, hsize, rfl⟩
  | inAlDx =>
    simp only [exec, execInAlDx] at h
    split at h <;> cases h

end Faults

/-- The ModR/M byte of an operand that has no address is a SIB form (R79). -/
theorem modrm_of_no_address {m : MemOp} {s : State} (x : BitVec 3) (h : operandAddress m s = none) :
    ((RM.mem m).modrm x).extractLsb' 0 3 = 4#3 ∧ ((RM.mem m).modrm x).extractLsb' 6 2 ≠ 3#2 := by
  obtain ⟨hmod, -, hrm⟩ := RM.modrm_fields x (.mem m)
  rw [hmod, hrm]
  cases m with
  | base | abs | baseDisp8 | baseDisp32 => cases h
  | sib | sibDisp8 | sibDisp32 => exact ⟨rfl, by simp [RM.modField]⟩

/-- The second byte of the fetch window is the byte of memory behind EIP. -/
theorem byte_of_fetchWindow {s : State} {b0 b1 : Byte} {rest : List Byte}
    (hw : fetchWindow s = b0 :: b1 :: rest) (hb : s.eip.toNat < s.mem.size) :
    s.mem.byte (s.eip.toNat + 1) = b1 := by
  obtain ⟨-, hbyte⟩ := bytes_of_fetchWindow (bs := [b0, b1]) hw hb
  exact hbyte 1 b1 rfl

/-- Settles O22: a rejected decoding names what the handler of the byte at EIP rejects, and a fault of the
instruction is one of its accesses; its ModR/M byte is the second byte of its encoding, which lies at
EIP. -/
theorem fatalDiagnosticIsTrue : Obligations.FatalDiagnosticIsTrue := by
  unfold Obligations.FatalDiagnosticIsTrue
  intro s f h
  obtain ⟨-, hb, ⟨e, hd, rfl⟩ | ⟨i, c, hd, hf⟩⟩ := step_fault_cases h
  · obtain ⟨rest, hw, hlen⟩ := fetchWindow_cons hb
    rw [hw, decode_cons] at hd
    cases dispatchOp_rejected hd with
    | cutShort hcut =>
      obtain ⟨offset, width, rfl, hwidth, hpast, hend⟩ := hcut
      dsimp only at hpast hend
      rw [maxLength] at hlen
      exact ⟨rfl, by omega, hwidth⟩
    | opcode hop he =>
      subst he
      exact ⟨rfl, rfl, hop⟩
    | extension hop hmodrm hx he =>
      subst he
      obtain ⟨-, hrest, -⟩ := decodeModRM_ok hmodrm
      have hbyte := byte_of_fetchWindow (hw.trans (congrArg _ hrest)) hb
      refine ⟨rfl, rfl, hop, ?_, hx⟩
      rw [hbyte, (RM.modrm_fields _ _).2.1]
  · obtain ⟨-, hbytes, -⟩ := decode_ok hd
    obtain ⟨-, hat⟩ := bytes_of_fetchWindow hbytes hb
    obtain ⟨x, m, hmodrm, ha, rfl⟩ | ⟨a, hsize, rfl⟩ := accessFault_of_exec hf
    · obtain ⟨hrm, hmod⟩ := modrm_of_no_address x ha
      exact ⟨rfl, (hat 1 _ hmodrm).symm, hrm, hmod⟩
    · exact ⟨rfl, hsize, .inr rfl⟩

/-- Settles O6: a number below 8 is a register field, and by O22 no fault of a step is `BadRegister`. -/
theorem registerLookupTotalBelowEight : Obligations.RegisterLookupTotalBelowEight := by
  unfold Obligations.RegisterLookupTotalBelowEight
  refine ⟨fun s n => ⟨fun hn => ⟨Reg.ofField (BitVec.ofNat 3 n), if_pos hn, ?_⟩, fun hn => ?_⟩,
    fun s e n h => fatalDiagnosticIsTrue s _ h⟩
  · rw [Reg.field_ofField, BitVec.toNat_ofNat]
    exact Nat.mod_eq_of_lt hn
  · exact if_neg (Nat.not_lt.2 hn)

end Sys2Proof.Claims

/-! # The opcode table (30_encoding.md rule R102)

No two rows share a word, so two bytes match at most one row. A decoded instruction is its own encoding,
which matches its row. Bytes that are rejected match no row, unless they are cut short. -/

namespace Sys2Proof.Claims

open Sys2Proof.Machine Host.Outcome

/-! ## At most one row -/

/-- Of any two rows the fixed bits differ under both masks. -/
theorem opcodeRows_differ : opcodeRows.Pairwise fun r q => r.1 &&& q.2 ≠ q.1 &&& r.2 := by decide

theorem rowMatches_iff {row : BitVec 16 × BitVec 16} {b0 b1 : Byte} :
    rowMatches row b0 b1 = true ↔ (b0 ++ b1 : BitVec 16) &&& row.2 = row.1 :=
  beq_iff_eq

/-- Bytes that match two rows make their fixed bits agree under both masks. -/
theorem agree_of_rowMatches {r q : BitVec 16 × BitVec 16} {b0 b1 : Byte}
    (hr : rowMatches r b0 b1 = true) (hq : rowMatches q b0 b1 = true) : r.1 &&& q.2 = q.1 &&& r.2 := by
  rw [← rowMatches_iff.1 hr, ← rowMatches_iff.1 hq, BitVec.and_assoc, BitVec.and_assoc,
    BitVec.and_comm r.2]

/-- A filter keeps at most one element of a list in which no two can both be kept. -/
theorem length_filter_le_one {α : Type} {R : α → α → Prop} {p : α → Bool} {l : List α}
    (hl : l.Pairwise R) (hR : ∀ a b, R a b → p a = true → p b = true → False) :
    (l.filter p).length ≤ 1 := by
  induction l with
  | nil => exact Nat.zero_le 1
  | cons a l ih =>
    obtain ⟨ha, hl⟩ := List.pairwise_cons.1 hl
    by_cases hp : p a = true
    · have hnone : l.filter p = [] := List.filter_eq_nil_iff.2 fun b hb => hR a b (ha b hb) hp
      rw [List.filter_cons_of_pos hp, hnone, List.length_singleton]
    · rw [List.filter_cons_of_neg hp]
      exact ih hl

/-! ## The row of a decoded instruction -/

/-- Every instruction has the facts of the family `Encoding`. -/
theorem encoding_statement : ∀ i : Instr, Laws.Encoding.Statement i
  | .movRImm32 r imm => Laws.Encoding.movRImm32 r imm
  | .movRmR rm r => Laws.Encoding.movRmR rm r
  | .movRRm r rm => Laws.Encoding.movRRm r rm
  | .movRmImm32 rm imm => Laws.Encoding.movRmImm32 rm imm
  | .addRmR rm r => Laws.Encoding.addRmR rm r
  | .addRmImm8 rm imm => Laws.Encoding.addRmImm8 rm imm
  | .subRmImm8 rm imm => Laws.Encoding.subRmImm8 rm imm
  | .cmpRmImm8 rm imm => Laws.Encoding.cmpRmImm8 rm imm
  | .incRm rm => Laws.Encoding.incRm rm
  | .pushR r => Laws.Encoding.pushR r
  | .pushImm32 imm => Laws.Encoding.pushImm32 imm
  | .pushImm8 imm => Laws.Encoding.pushImm8 imm
  | .popR r => Laws.Encoding.popR r
  | .leave => Laws.Encoding.leave
  | .jmpRel8 rel => Laws.Encoding.jmpRel8 rel
  | .jmpRel32 rel => Laws.Encoding.jmpRel32 rel
  | .jo rel => Laws.Encoding.jo rel
  | .jno rel => Laws.Encoding.jno rel
  | .jc rel => Laws.Encoding.jc rel
  | .jnc rel => Laws.Encoding.jnc rel
  | .jz rel => Laws.Encoding.jz rel
  | .jnz rel => Laws.Encoding.jnz rel
  | .js rel => Laws.Encoding.js rel
  | .jns rel => Laws.Encoding.jns rel
  | .jl rel => Laws.Encoding.jl rel
  | .jle rel => Laws.Encoding.jle rel
  | .callRel32 rel => Laws.Encoding.callRel32 rel
  | .ret => Laws.Encoding.ret
  | .inAlDx => Laws.Encoding.inAlDx
  | .outDxAl => Laws.Encoding.outDxAl

theorem row_of_decode {b0 b1 : Byte} {rest : List Byte} {i : Instr} {c : Cursor}
    (h : decode (b0 :: b1 :: rest) = .ok (i, c)) :
    i.row ∈ opcodeRows ∧ rowMatches i.row b0 b1 = true := by
  obtain ⟨-, hbytes, -⟩ := decode_ok h
  obtain ⟨-, -, -, hrow, hmatch⟩ := encoding_statement i
  exact ⟨hrow, hmatch b0 b1 rest c.rest hbytes.symm⟩

/-! ## Rejected bytes match no row -/

/-- A row is matched byte by byte. -/
theorem bytes_of_rowMatches {row : BitVec 16 × BitVec 16} {b0 b1 : Byte}
    (h : rowMatches row b0 b1 = true) :
    b0 &&& row.2.extractLsb' 8 8 = row.1.extractLsb' 8 8 ∧
      b1 &&& row.2.extractLsb' 0 8 = row.1.extractLsb' 0 8 := by
  rw [← rowMatches_iff.1 h]
  constructor <;>
  · apply BitVec.eq_of_getLsbD_eq
    intro i hi
    simp only [BitVec.getLsbD_extractLsb', BitVec.getLsbD_and, BitVec.getLsbD_append]
    simp [hi]

/-- A row fixes a registered opcode byte, or the family of a `+r` opcode byte. -/
theorem opcodeRows_high : ∀ row ∈ opcodeRows,
    row.2.extractLsb' 8 8 = 0xFF#8 ∧ row.1.extractLsb' 8 8 ∈ registeredOpcodes ∨
    row.2.extractLsb' 8 8 = 0xF8#8 ∧ (row.1.extractLsb' 8 8).extractLsb' 3 5 ∈ plusRFamilies :=
  List.all_iff_forall_prop.1 (by decide)

/-- The row of a group opcode fixes a registered `reg` field. -/
theorem opcodeRows_low : ∀ op ∈ [0x83#8, 0xC7#8, 0xFF#8], ∀ row ∈ opcodeRows,
    op &&& row.2.extractLsb' 8 8 = row.1.extractLsb' 8 8 →
    row.2.extractLsb' 0 8 = 0x38#8 ∧ (row.1.extractLsb' 0 8).extractLsb' 3 3 ∈ registeredExtensions op := by
  intro op hop
  simp only [List.mem_cons, List.not_mem_nil, or_false] at hop
  obtain rfl | rfl | rfl := hop <;> exact List.all_iff_forall_prop.1 (by decide)

theorem family_and_mask : ∀ op : Byte, (op &&& 0xF8#8).extractLsb' 3 5 = op.extractLsb' 3 5 := by decide

theorem reg_and_mask : ∀ b : Byte, (b &&& 0x38#8).extractLsb' 3 3 = b.extractLsb' 3 3 := by decide

theorem registered_of_row {op : Byte} {row : BitVec 16 × BitVec 16} (hrow : row ∈ opcodeRows)
    (h : op &&& row.2.extractLsb' 8 8 = row.1.extractLsb' 8 8) : op ∈ registeredOpcodes := by
  obtain ⟨hmask, hop⟩ | ⟨hmask, hfamily⟩ := opcodeRows_high row hrow
  · rw [← h, hmask, show (0xFF#8 : Byte) = BitVec.allOnes 8 from rfl, BitVec.and_allOnes] at hop
    exact hop
  · rw [← h, hmask, family_and_mask] at hfamily
    exact registered_of_family op hfamily

theorem registered_extension_of_row {op b : Byte} {row : BitVec 16 × BitVec 16}
    (hop : op ∈ [0x83#8, 0xC7#8, 0xFF#8]) (hrow : row ∈ opcodeRows)
    (h0 : op &&& row.2.extractLsb' 8 8 = row.1.extractLsb' 8 8)
    (h1 : b &&& row.2.extractLsb' 0 8 = row.1.extractLsb' 0 8) :
    b.extractLsb' 3 3 ∈ registeredExtensions op := by
  obtain ⟨hmask, hx⟩ := opcodeRows_low op hop row hrow h0
  rw [← h1, hmask, reg_and_mask] at hx
  exact hx

/-- With nine more bytes behind them, two bytes that match a row decode. -/
theorem decode_of_rowMatches {b0 b1 : Byte} {rest : List Byte} {row : BitVec 16 × BitVec 16}
    (hlen : 9 ≤ rest.length) (hrow : row ∈ opcodeRows) (hmatch : rowMatches row b0 b1 = true) :
    ∃ i c, decode (b0 :: b1 :: rest) = .ok (i, c) := by
  obtain ⟨h0, h1⟩ := bytes_of_rowMatches hmatch
  cases hd : decode (b0 :: b1 :: rest) with
  | ok r => exact ⟨r.1, r.2, rfl⟩
  | error e =>
    rw [decode_cons] at hd
    cases dispatchOp_rejected hd with
    | cutShort hcut =>
      obtain ⟨offset, width, -, -, hpast, hend⟩ := hcut
      simp only [List.length_cons] at hpast hend
      omega
    | opcode hop _ => exact absurd (registered_of_row hrow h0) hop
    | extension hop hmodrm hx _ =>
      obtain ⟨-, rfl, -⟩ := decodeModRM_cons_ok hmodrm
      exact absurd (registered_extension_of_row hop hrow h0 h1) hx

/-- Settles O11: the rows differ pairwise, a decoded instruction matches its row, and bytes that match a row
are not rejected. -/
theorem decoderFollowsOpcodeTable : Obligations.DecoderFollowsOpcodeTable := by
  unfold Obligations.DecoderFollowsOpcodeTable
  refine ⟨fun b0 b1 => ?_, fun b0 b1 rest i c h => row_of_decode h, fun b0 b1 rest hlen => ⟨?_, ?_⟩⟩
  · exact length_filter_le_one opcodeRows_differ fun r q hne hr hq => hne (agree_of_rowMatches hr hq)
  · rintro ⟨i, c, h⟩
    obtain ⟨hrow, hmatch⟩ := row_of_decode h
    exact ⟨i.row, hrow, hmatch⟩
  · rintro ⟨row, hrow, hmatch⟩
    exact decode_of_rowMatches hlen hrow hmatch

end Sys2Proof.Claims

/-! # The execution loop (30_encoding.md rules R93 and R96, 60_exceptions.md rules R207, R211 and R212) -/

namespace Sys2Proof.Claims

open Sys2Proof.Machine Host.Outcome

/-- Settles O14: the step is the halt test of the instruction, which passes a fault and a refusal on. -/
theorem stepRunsDecodedInstruction : Obligations.StepRunsDecodedInstruction := by
  unfold Obligations.StepRunsDecodedInstruction
  intro s i c hr hb hd
  have hstep : step s = haltTest (exec i s) := step_of_decode hr hb hd
  exact ⟨fun t h => by rw [hstep, h, haltTest_next], fun f h => by rw [hstep, h, haltTest_fault],
    fun r h => by rw [hstep, h, haltTest_refused]⟩

/-- Settles O18, by induction on the steps: each of them starts from the terminal state itself. -/
theorem terminalRunStatesAreNeverLeft : Obligations.TerminalRunStatesAreNeverLeft := by
  unfold Obligations.TerminalRunStatesAreNeverLeft
  intro s t hr h
  refine ⟨?_, step_of_terminal hr⟩
  induction h with
  | refl => rfl
  | step _ hu ih =>
    rw [ih, step_of_terminal hr, next.injEq] at hu
    exact hu.symm

/-! ## The fetch reads current memory -/

theorem fetchWindow_get {s : State} {k : Nat} (hk : k < maxLength) (hb : s.eip.toNat + k < s.mem.size) :
    (fetchWindow s)[k]? = some (s.mem.byte (s.eip.toNat + k)) :=
  Memory.window_get _ hk hb

/-- Settles O23: the window is made of bytes of memory, and a written byte that it covers is one of them. -/
theorem fetchReadsCurrentMemory : Obligations.FetchReadsCurrentMemory := by
  unfold Obligations.FetchReadsCurrentMemory
  refine ⟨fun s k hk hb => fetchWindow_get hk hb, fun s t a v k b hw hk hlow hhigh => ?_⟩
  obtain ⟨ha, rfl⟩ := memWrite32_ok.1 hw
  have hlt : k < 4 := (List.getElem?_eq_some_iff.1 hk).1
  have hbyte : (s.mem.setWord a.toNat v).byte (a.toNat + k) = b := Memory.byte_setBytes_inside _ hk
  have hindex : s.eip.toNat + (a.toNat + k - s.eip.toNat) = a.toNat + k := Nat.add_sub_cancel' hlow
  rw [State.setMem_eip] at hlow hhigh ⊢
  rw [fetchWindow_get (by omega) (by rw [State.setMem_eip, State.setMem_mem, Memory.setWord_size]; omega),
    State.setMem_eip, State.setMem_mem, hindex, hbyte]

/-! ## A jump to itself -/

/-- A displacement of -2 takes a two-byte jump back to its own opcode byte. -/
theorem jumpRelative_self (s : State) : s.jumpRelative 2#32 (sext32 0xFE#8) = s := by
  have heip : s.eip + 2#32 + sext32 0xFE#8 = s.eip := by
    rw [BitVec.add_assoc, show 2#32 + sext32 0xFE#8 = 0#32 by decide, BitVec.add_zero]
  show s.setEip (s.eip + 2#32 + sext32 0xFE#8) = s
  rw [heip]
  rfl

/-- With one more unit of fuel a run makes a step and goes on from there. -/
theorem run_succ_of_step (M : Host.Core) {s t : M.State} (k : Nat) (h : M.step s = next t) :
    M.run (k + 1) s = M.run k t := by
  rw [Host.Core.run, h]

/-- Settles O24, by induction on the fuel: the step answers the state it starts from. -/
theorem jumpToItselfNeverEnds : Obligations.JumpToItselfNeverEnds := by
  unfold Obligations.JumpToItselfNeverEnds
  intro s k hr h0 hbytes
  have hexec : exec (.jmpRel8 0xFE#8) s = next s := congrArg next (jumpRelative_self s)
  have hstep : step s = next s := by
    rw [step_of_bytesAtEip (i := .jmpRel8 0xFE#8) hr rfl hbytes, hexec, haltTest_next, if_neg h0]
  induction k with
  | zero => rfl
  | succ k ih => exact (run_succ_of_step core k hstep).trans ih

/-! ## EIP after an instruction -/

/-- A conditional jump always completes, and sets EIP by its predicate (R162). -/
theorem exec_conditionalJump {rel : Byte} {s : State} {j : Byte × Instr × Bool}
    (hj : j ∈ conditionalJumps rel s.eflags) : exec j.2.1 s =
      next (s.setEip (if j.2.2 then s.eip + 2#32 + rel.signExtend 32 else s.eip + 2#32)) := by
  simp only [conditionalJumps, List.mem_cons, List.not_mem_nil, or_false] at hj
  rcases hj with rfl | rfl | rfl | rfl | rfl | rfl | rfl | rfl | rfl | rfl <;> exact jccRel8_eq ..

theorem eip_of_writeRM {x : BitVec 3} {rm : RM} {s t : State} {v : Word} (h : writeRM x rm v s = .ok t) :
    t.eip = s.eip :=
  (writeRM_frame h).1

theorem eip_of_push32 {s t : State} {v : Word} (h : push32 v s = .ok t) : t.eip = s.eip :=
  (push32_frame h).1

theorem eip_of_pop32 {s t : State} {v : Word} (h : pop32 s = .ok (v, t)) : t.eip = s.eip := by
  obtain ⟨-, -, rfl⟩ := pop32_ok.1 h
  rfl

/-- Settles O29: the meaning of each instruction moves EIP as said, because the accesses before that leave
EIP alone; the halt test changes the run state only. -/
theorem eipAfterInstruction : Obligations.EipAfterInstruction := by
  unfold Obligations.EipAfterInstruction
  refine ⟨fun s t i c hr hb hd he => ⟨_, by rw [step_of_decode hr hb hd, he, haltTest_next], ?_⟩,
    fun i s t h => ?_⟩
  · split <;> rfl
  cases i with
  | movRImm32 | jmpRel8 | jmpRel32 =>
    cases h
    rfl
  | movRRm | cmpRmImm8 =>
    obtain ⟨v, -, h⟩ := bind_ok.1 (outcomeOf_next.1 h)
    cases h
    rfl
  | movRmR | movRmImm32 =>
    obtain ⟨u, hu, h⟩ := bind_ok.1 (outcomeOf_next.1 h)
    cases h
    exact congrArg (· + _) (eip_of_writeRM hu :)
  | addRmR | addRmImm8 | subRmImm8 | incRm =>
    obtain ⟨v, -, h⟩ := bind_ok.1 (outcomeOf_next.1 h)
    obtain ⟨u, hu, h⟩ := bind_ok.1 h
    cases h
    exact congrArg (· + _) (eip_of_writeRM hu :)
  | pushR | pushImm32 | pushImm8 =>
    obtain ⟨u, hu, h⟩ := bind_ok.1 (outcomeOf_next.1 h)
    cases h
    exact congrArg (· + _) (eip_of_push32 hu)
  | callRel32 rel =>
    obtain ⟨u, hu, h⟩ := bind_ok.1 (outcomeOf_next.1 h)
    cases h
    exact congrArg (· + 5#32 + rel) (eip_of_push32 hu)
  | popR | leave =>
    obtain ⟨⟨v, u⟩, hu, h⟩ := bind_ok.1 (outcomeOf_next.1 h)
    cases h
    exact congrArg (· + 1#32) (eip_of_pop32 hu :)
  | ret =>
    obtain ⟨⟨v, u⟩, hu, h⟩ := bind_ok.1 (outcomeOf_next.1 h)
    cases h
    obtain ⟨-, hword, -⟩ := pop32_ok.1 hu
    exact (storedAt_iff ..).2 hword
  | jo | jno | jc | jnc | jz | jnz | js | jns | jl | jle =>
    intro d j hj hij
    rw [hij, exec_conditionalJump hj, next.injEq] at h
    rw [← h, State.setEip_eip]
  | inAlDx =>
    obtain ⟨b, u, hu, rfl⟩ := exec_inAlDx_next.1 h
    obtain ⟨-, -, rfl⟩ | ⟨-, -, rfl⟩ := portIn_some.1 hu <;> rfl
  | outDxAl =>
    obtain ⟨-, -, heip, -⟩ := portOut_frame (lo16 (s.reg .edx)) (lo8 (s.reg .eax)) s
    cases h
    exact congrArg (· + 1#32) heip

/-! ## Blocking -/

/-- Only IN is ever refused. -/
theorem inAlDx_of_exec_refused {i : Instr} {s : State} {r : Refusal} (h : exec i s = refused r) :
    i = .inAlDx := by
  cases i with
  | inAlDx => rfl
  | movRImm32 | jmpRel8 | jmpRel32 | outDxAl => cases h
  | jo | jno | jc | jnc | jz | jnz | js | jns | jl | jle =>
    have h : jccRel8 _ _ s = refused r := h
    rw [jccRel8_eq] at h
    cases h
  | movRmR | movRRm | movRmImm32 | addRmR | addRmImm8 | subRmImm8 | cmpRmImm8 | incRm | pushR | pushImm32
  | pushImm8 | popR | leave | callRel32 | ret => exact absurd h outcomeOf_ne_refused

/-- The byte EC at EIP is the whole encoding of IN. -/
theorem bytesAtEip_inAlDx {s : State} :
    BytesAtEip s (encode .inAlDx) ↔ s.eip.toNat < s.mem.size ∧ s.mem.byte s.eip.toNat = 0xEC#8 := by
  constructor
  · rintro ⟨hb, hbyte⟩
    exact ⟨hb, hbyte 0 0xEC#8 rfl⟩
  · rintro ⟨hb, hbyte⟩
    refine ⟨hb, fun k b hk => ?_⟩
    cases k with
    | zero => exact hbyte.trans (Option.some.inj hk)
    | succ k => cases hk

/-- The core is at an IN from the live port with no input byte left. -/
structure AwaitsInput (s : State) : Prop where
  running : s.run = .running
  bytes : BytesAtEip s (encode .inAlDx)
  port : lo16 (s.reg .edx) = livePort
  empty : s.input.length ≤ s.consumed

theorem step_inAlDx {s : State} (hr : s.run = .running) (hbytes : BytesAtEip s (encode .inAlDx)) :
    step s = haltTest (exec .inAlDx s) :=
  step_of_bytesAtEip hr rfl hbytes

theorem awaitsInput_of_step {s : State} {r : Refusal} (h : step s = refused r) :
    AwaitsInput s ∧ r = .blockedOnInput := by
  obtain ⟨hr, hb, i, c, hd, he⟩ := step_refused_cases h
  obtain rfl := inAlDx_of_exec_refused he
  obtain ⟨-, hbytes, -⟩ := decode_ok hd
  obtain ⟨hport, rfl⟩ := exec_inAlDx_refused.1 he
  obtain ⟨hlive, hempty⟩ := portIn_none.1 hport
  exact ⟨⟨hr, bytes_of_fetchWindow hbytes hb, hlive, hempty⟩, rfl⟩

theorem AwaitsInput.step {s : State} (h : AwaitsInput s) : step s = refused .blockedOnInput := by
  have hexec : exec .inAlDx s = refused .blockedOnInput :=
    exec_inAlDx_refused.2 ⟨portIn_none.2 ⟨h.port, h.empty⟩, rfl⟩
  rw [step_inAlDx h.running h.bytes, hexec, haltTest_refused]

/-- With one more byte supplied the core goes on. -/
theorem AwaitsInput.step_supplyInput {s : State} (h : AwaitsInput s) (b : Byte)
    (hall : s.consumed = s.input.length) : ∃ t, Machine.step (s.supplyInput [b]) = next t := by
  have hbyte : (s.supplyInput [b]).input[(s.supplyInput [b]).consumed]? = some b := by
    simp [hall]
  have hexec : exec .inAlDx (s.supplyInput [b]) = next _ :=
    exec_inAlDx_next.2 ⟨b, _, portIn_some.2 (.inl ⟨h.port, hbyte, rfl⟩), rfl⟩
  exact ⟨_, by rw [step_inAlDx (s := s.supplyInput [b]) h.running h.bytes, hexec, haltTest_next]⟩

/-- Settles O31: the refused steps are those of the states that await input. -/
theorem blockedOnlyWithoutInputByte : Obligations.BlockedOnlyWithoutInputByte := by
  unfold Obligations.BlockedOnlyWithoutInputByte
  refine fun s => ⟨⟨?_, ?_⟩, fun r h => ?_, fun r b h hall => ?_⟩
  · rintro ⟨r, h⟩
    obtain ⟨⟨hr, hbytes, hport, hempty⟩, -⟩ := awaitsInput_of_step h
    obtain ⟨hb, hbyte⟩ := bytesAtEip_inAlDx.1 hbytes
    exact ⟨hr, hb, hbyte, hport, hempty⟩
  · rintro ⟨hr, hb, hbyte, hport, hempty⟩
    exact ⟨_, AwaitsInput.step ⟨hr, bytesAtEip_inAlDx.2 ⟨hb, hbyte⟩, hport, hempty⟩⟩
  · exact ⟨(awaitsInput_of_step h).2, by rw [stepOutcome, h]⟩
  · exact (awaitsInput_of_step h).1.step_supplyInput b hall

end Sys2Proof.Claims

/-! ## Unread input

Supplying input commutes with every instruction but an IN that blocks, as replacing EFLAGS does with every
instruction but the conditional jumps. -/

namespace Sys2Proof.Machine

open Host.Outcome

section Commute

variable (s : State) (more : List Byte)

@[simp] theorem State.setReg_supplyInput (r : Reg) (w : Word) :
    (s.supplyInput more).setReg r w = (s.setReg r w).supplyInput more := rfl

@[simp] theorem State.setMem_supplyInput (m : Memory) :
    (s.supplyInput more).setMem m = (s.setMem m).supplyInput more := rfl

@[simp] theorem State.setEip_supplyInput (w : Word) :
    (s.supplyInput more).setEip w = (s.setEip w).supplyInput more := rfl

@[simp] theorem State.advanceEip_supplyInput (d : Word) :
    (s.supplyInput more).advanceEip d = (s.advanceEip d).supplyInput more := rfl

@[simp] theorem State.jumpRelative_supplyInput (len rel : Word) :
    (s.supplyInput more).jumpRelative len rel = (s.jumpRelative len rel).supplyInput more := rfl

@[simp] theorem State.updateSubFlags_supplyInput (a b : Word) :
    (s.supplyInput more).updateSubFlags a b = (s.updateSubFlags a b).supplyInput more := rfl

@[simp] theorem memRead32_supplyInput (a : Word) :
    memRead32 (s.supplyInput more) a = memRead32 s a := rfl

@[simp] theorem memWrite32_supplyInput (a w : Word) :
    memWrite32 (s.supplyInput more) a w = (·.supplyInput more) <$> memWrite32 s a w := by
  cases h : s.mem.inBounds a.toNat 4 <;> simp [memWrite32, h]

@[simp] theorem push32_supplyInput (w : Word) :
    push32 w (s.supplyInput more) = (·.supplyInput more) <$> push32 w s := by
  simp [push32]

@[simp] theorem pop32_supplyInput :
    pop32 (s.supplyInput more) = Prod.map id (·.supplyInput more) <$> pop32 s := by
  simp [pop32]

@[simp] theorem effectiveAddress_supplyInput (x : BitVec 3) (m : MemOp) :
    effectiveAddress x m (s.supplyInput more) = effectiveAddress x m s := by
  simp [effectiveAddress, operandAddress_congr (s := s) (t := s.supplyInput more) m rfl]

@[simp] theorem readRM_supplyInput (x : BitVec 3) (rm : RM) :
    readRM x rm (s.supplyInput more) = readRM x rm s := by
  cases rm with
  | reg r => rfl
  | mem m => simp [readRM]

@[simp] theorem writeRM_supplyInput (x : BitVec 3) (rm : RM) (w : Word) :
    writeRM x rm w (s.supplyInput more) = (·.supplyInput more) <$> writeRM x rm w s := by
  cases rm with
  | reg r => rfl
  | mem m => simp [writeRM]

@[simp] theorem portOut_supplyInput (p : BitVec 16) (b : Byte) :
    portOut p b (s.supplyInput more) = (portOut p b s).supplyInput more := by
  unfold portOut
  split <;> rfl

end Commute

/-- A port read that answers answers the same when more input has been supplied. -/
theorem portIn_supplyInput {p : BitVec 16} {s t : State} {b : Byte} (more : List Byte)
    (h : portIn p s = some (b, t)) : portIn p (s.supplyInput more) = some (b, t.supplyInput more) := by
  obtain ⟨hlive, hb, rfl⟩ | ⟨hother, rfl, rfl⟩ := portIn_some.1 h
  · have hlt : s.consumed < s.input.length := (List.getElem?_eq_some_iff.1 hb).1
    exact portIn_some.2 (.inl ⟨hlive, (List.getElem?_append_left hlt).trans hb, rfl⟩)
  · exact portIn_some.2 (.inr ⟨hother, rfl, rfl⟩)

/-- The outcome with more input supplied in its next state. -/
def withInput (more : List Byte) : Host.Outcome State Fault Refusal → Host.Outcome State Fault Refusal
  | .next t => .next (t.supplyInput more)
  | .fault f => .fault f
  | .refused r => .refused r

@[simp] theorem withInput_next (more : List Byte) (t : State) :
    withInput more (.next t) = .next (t.supplyInput more) := rfl

@[simp] theorem withInput_fault (more : List Byte) (f : Fault) : withInput more (.fault f) = .fault f := rfl

@[simp] theorem withInput_outcomeOf (more : List Byte) (r : Except Fault State) :
    withInput more (outcomeOf r) = outcomeOf ((·.supplyInput more) <$> r) := by
  cases r <;> rfl

theorem jccRel8_supplyInput (cc : Cond) (rel : Byte) (s : State) (more : List Byte) :
    jccRel8 cc rel (s.supplyInput more) = withInput more (jccRel8 cc rel s) := by
  rw [jccRel8_eq, jccRel8_eq]
  rfl

theorem haltTest_withInput (more : List Byte) (o : Host.Outcome State Fault Refusal) :
    haltTest (withInput more o) = withInput more (haltTest o) := by
  cases o with
  | next t =>
    rw [withInput_next, haltTest_next, haltTest_next]
    by_cases h0 : t.eip = 0#32
    · rw [if_pos h0, if_pos (c := (t.supplyInput more).eip = 0#32) h0]
      rfl
    · rw [if_neg h0, if_neg (c := (t.supplyInput more).eip = 0#32) h0]
      rfl
  | fault | refused => rfl

/-- An instruction that is not refused carries unread input through. -/
theorem exec_supplyInput (i : Instr) (s : State) (more : List Byte) (h : ∀ r, exec i s ≠ refused r) :
    exec i (s.supplyInput more) = withInput more (exec i s) := by
  cases i with
  | movRImm32 r imm => rfl
  | movRmR rm r => simp [exec, execMovRmR]
  | movRRm r rm => simp [exec, execMovRRm]
  | movRmImm32 rm imm => simp [exec, execMovRmImm32]
  | addRmR rm r => simp [exec, execAddRmR]
  | addRmImm8 rm imm => simp [exec, execAddRmImm8]
  | subRmImm8 rm imm => simp [exec, execSubRmImm8]
  | cmpRmImm8 rm imm => simp [exec, execCmpRmImm8]
  | incRm rm => simp [exec, execIncRm]
  | pushR r => simp [exec, execPushR]
  | pushImm32 imm => simp [exec, execPushImm32]
  | pushImm8 imm => simp [exec, execPushImm8]
  | popR r => simp [exec, execPopR]
  | leave => simp [exec, execLeave]
  | jmpRel8 rel => rfl
  | jmpRel32 rel => rfl
  | jo | jno | jc | jnc | jz | jnz | js | jns | jl | jle => exact jccRel8_supplyInput ..
  | callRel32 rel => simp [exec, execCallRel32]
  | ret => simp [exec, execRet]
  | inAlDx =>
    cases he : exec .inAlDx s with
    | next t =>
      obtain ⟨b, u, hu, rfl⟩ := exec_inAlDx_next.1 he
      exact exec_inAlDx_next.2 ⟨b, _, portIn_supplyInput more hu, rfl⟩
    | fault f => simp only [exec, execInAlDx] at he; split at he <;> cases he
    | refused r => exact absurd he (h r)
  | outDxAl => simp [exec, execOutDxAl]

end Sys2Proof.Machine

namespace Sys2Proof.Claims

open Sys2Proof.Machine Host.Outcome

/-- A step that is not refused carries unread input through. -/
theorem step_supplyInput {s : State} (more : List Byte) (h : ∀ r, step s ≠ refused r) :
    step (s.supplyInput more) = withInput more (step s) := by
  by_cases hr : s.run = .running
  case neg =>
    rw [step_of_terminal (s := s.supplyInput more) hr, step_of_terminal hr, withInput_next]
  by_cases hb : s.eip.toNat < s.mem.size
  case neg =>
    have hb : s.mem.size ≤ s.eip.toNat := Nat.not_lt.1 hb
    rw [step_of_eip_outside (s := s.supplyInput more) hr hb, step_of_eip_outside hr hb]
    rfl
  cases hd : decode (fetchWindow s) with
  | error e =>
    rw [step_of_decode_error hr hb hd, step_of_decode_error (s := s.supplyInput more) hr hb hd]
    rfl
  | ok p =>
    obtain ⟨i, c⟩ := p
    have hstep : step s = haltTest (exec i s) := step_of_decode hr hb hd
    have hexec : ∀ r, exec i s ≠ refused r := fun r he => h r (by rw [hstep, he, haltTest_refused])
    rw [step_of_decode (s := s.supplyInput more) hr hb hd, exec_supplyInput i s more hexec,
      haltTest_withInput, hstep]

/-- Settles O32: a step that completes or is fatal is not refused, and so carries unread input through. -/
theorem unreadInputDoesNotMatter : Obligations.UnreadInputDoesNotMatter := by
  unfold Obligations.UnreadInputDoesNotMatter
  refine fun s more => ⟨fun t h => ?_, fun f h => ?_⟩
  · rw [step_supplyInput more fun r hr => (by rw [h] at hr; cases hr), h, withInput_next]
  · rw [step_supplyInput more fun r hr => (by rw [h] at hr; cases hr), h, withInput_fault]

end Sys2Proof.Claims

/-! # Construction and registers (10_state.md, 70_reset_and_hazards.md) -/

namespace Sys2Proof.Claims

open Sys2Proof.Machine Host.Outcome

/-- A size that the spec admits makes the state of rule R222. -/
theorem construct_ok {n : Nat} {eip esp : Word} {s : State} :
    State.construct n eip esp = .ok s ↔ 0 < n ∧ n < 2 ^ 32 ∧
      s = ⟨⟨0#32, 0#32, 0#32, 0#32, esp, 0#32, 0#32, 0#32⟩, eip, 0#32, ⟨n, []⟩, .running, [], 0, []⟩ := by
  unfold State.construct
  split
  · next h => exact ⟨fun hc => (nomatch hc), fun ⟨hpos, _⟩ => absurd h (Nat.ne_of_gt hpos)⟩
  · next h =>
    split
    · next hbig => exact ⟨fun hc => (nomatch hc), fun ⟨_, hlt, _⟩ => absurd hlt (Nat.not_lt.2 hbig)⟩
    · next hbig =>
      simp only [Except.ok.injEq, Nat.pos_of_ne_zero h, Nat.not_le.1 hbig, true_and]
      exact eq_comm

/-- Settles O1: the fields of the constructed state, read off. -/
theorem constructionGivesResetState : Obligations.ConstructionGivesResetState := by
  unfold Obligations.ConstructionGivesResetState
  intro n eip esp hpos hbound
  refine ⟨_, construct_ok.2 ⟨hpos, hbound, rfl⟩, rfl, rfl, fun r hr => ?_, rfl, rfl, fun a => rfl, rfl,
    rfl, rfl⟩
  cases r with
  | esp => exact absurd rfl hr
  | eax | ecx | edx | ebx | ebp | esi | edi => rfl

/-- Settles O2: the two checks of construction, and the parameters of the reset state. -/
theorem constructionRefusesBadMemorySize : Obligations.ConstructionRefusesBadMemorySize := by
  unfold Obligations.ConstructionRefusesBadMemorySize
  refine fun n eip esp => ⟨fun h0 => if_pos h0, fun hbig => ?_, rfl⟩
  rw [State.construct, if_neg (show n ≠ 0 by omega), if_pos hbig]

/-- Empty memory and cleared flags meet the invariant at every admitted size. -/
theorem inv_of_construct {n : Nat} {eip esp : Word} {s : State}
    (h : State.construct n eip esp = .ok s) : s.Inv := by
  obtain ⟨hpos, hbound, rfl⟩ := construct_ok.1 h
  exact {
    memory := ⟨List.Pairwise.nil, fun c hc => absurd hc List.not_mem_nil⟩
    sizePositive := hpos
    sizeBound := hbound
    reserved := BitVec.zero_and
    input := Nat.le_refl 0
    halted := fun h => nomatch h
    exited := fun h => nomatch h }

/-- Loading changes memory only, and keeps its size and its canonical form. -/
theorem inv_of_loadImage {s t : State} {image : List Byte} {addr : Word} (hi : s.Inv)
    (h : s.loadImage image addr = .ok t) : t.Inv := by
  have hwf : t.mem.wf := loadImage_wf h hi.memory
  have hsize : t.mem.size = s.mem.size := (bytesKeptOutside_of_loadImage h).1
  obtain ⟨-, rfl⟩ := loadImage_ok.1 h
  exact { hi with
    memory := hwf
    sizePositive := hsize ▸ hi.sizePositive
    sizeBound := hsize ▸ hi.sizeBound
    exited := fun hx => hsize ▸ hi.exited hx }

/-- Settles O25: the reset state is a construction. -/
theorem constructionMeetsInvariant : Obligations.ConstructionMeetsInvariant := by
  unfold Obligations.ConstructionMeetsInvariant
  have hreset : State.construct Config.memSize Config.initEip Config.initEsp = .ok State.reset := rfl
  exact ⟨inv_of_construct hreset, fun n eip esp s h => inv_of_construct h,
    fun s t image addr hi h => inv_of_loadImage hi h⟩

theorem regsKept_setReg (s : State) (r : Reg) (v : Word) : RegsKept [r] s (s.setReg r v) :=
  fun _ hq => State.setReg_reg_other s v (by simpa using hq)

/-- Settles O7: the law of `setReg`, and its frame by unfolding. -/
theorem registerWriteIsReadBack : Obligations.RegisterWriteIsReadBack := by
  unfold Obligations.RegisterWriteIsReadBack
  exact fun s r v => ⟨State.setReg_reg_same s r v, regsKept_setReg s r v, ⟨rfl, fun _ => rfl⟩, rfl, rfl,
    rfl, rfl, rfl, rfl⟩

/-- Settles O5: the bounds check of each access. -/
theorem accessOutsideMemoryIsBoundsError : Obligations.AccessOutsideMemoryIsBoundsError := by
  unfold Obligations.AccessOutsideMemoryIsBoundsError
  refine fun s a v b => ⟨fun h => ⟨memRead32_error.2 ⟨h, rfl⟩, memWrite32_error.2 ⟨h, rfl⟩⟩,
    fun h => ?_⟩
  have hout : ¬ s.mem.inBounds a.toNat 1 = true := mt (inBounds_iff ..).1 (Nat.not_le.2 h)
  exact ⟨if_neg hout, if_neg hout⟩

/-- Settles O8, by running the decoder on each of the seven words. -/
theorem specWordsDecode : Obligations.SpecWordsDecode := by
  unfold Obligations.SpecWordsDecode
  exact ⟨rfl, rfl, rfl, rfl, rfl, rfl, rfl⟩

end Sys2Proof.Claims

/-! # Sums modulo 2^32 said over the integers (30_encoding.md rules R76 to R78 and R87)

A sum of words is the sum of its operands' values, one of them signed, reduced modulo 2^32. Effective
addresses and relative targets are both such sums. -/

namespace Sys2Proof.Claims

open Sys2Proof.Machine Host.Outcome

theorem toNat_add_toInt (a b : Word) : ((a + b).toNat : Int) = (a.toNat + b.toInt) % 2 ^ 32 := by
  have hb := b.isLt
  rw [BitVec.toNat_add, BitVec.toInt_eq_toNat_cond]
  split <;> omega

theorem toInt_signExtend (d : Byte) : (d.signExtend 32).toInt = d.toInt :=
  BitVec.toInt_signExtend_of_le (by omega)

theorem toNat_add_signExtend (a : Word) (d : Byte) :
    ((a + d.signExtend 32).toNat : Int) = (a.toNat + d.toInt) % 2 ^ 32 := by
  rw [toNat_add_toInt, toInt_signExtend]

/-- Settles O13: the address of each form is a register, a displacement, or a sum of the two. -/
theorem effectiveAddressForms : Obligations.EffectiveAddressForms := by
  unfold Obligations.EffectiveAddressForms
  exact fun s x b d8 d32 => ⟨rfl, rfl, ⟨_, rfl, toNat_add_signExtend (s.reg b) d8⟩,
    ⟨_, rfl, toNat_add_toInt (s.reg b) d32⟩⟩

/-- A relative target over the integers. -/
theorem toNat_target (a len d : Word) :
    ((a + len + d).toNat : Int) = (a.toNat + len.toNat + d.toInt) % 2 ^ 32 := by
  rw [toNat_add_toInt, BitVec.toNat_add]
  omega

end Sys2Proof.Claims

/-! # The subtraction flags (41_arithmetic.md rules R120 and R127) -/

namespace Sys2Proof.Claims

open Sys2Proof.Machine Host.Outcome

theorem getLsbD_31_iff (a : Word) : a.getLsbD 31 = true ↔ a.toInt < 0 := by
  rw [← BitVec.msb_eq_getLsbD_last, BitVec.msb_eq_toInt, decide_eq_true_eq]

theorem sign_eq_iff (a b : Word) : a.getLsbD 31 = b.getLsbD 31 ↔ (a.toInt < 0 ↔ b.toInt < 0) := by
  rw [Bool.eq_iff_iff, getLsbD_31_iff, getLsbD_31_iff]

/-- The signed difference of two words, up to a multiple of 2^32. -/
theorem toInt_sub_eq (a b : Word) : ∃ k : Int, (a - b).toInt = a.toInt - b.toInt - 2 ^ 32 * k :=
  ⟨_, BitVec.toInt_sub.trans (Int.bmod_eq_self_sub_mul_bdiv _ _)⟩

theorem toInt_bounds (a : Word) : -2 ^ 31 ≤ a.toInt ∧ a.toInt < 2 ^ 31 :=
  ⟨BitVec.le_toInt a, BitVec.toInt_lt⟩

/-- The sign-bit rule of the source says that the signed difference does not fit (R120). -/
theorem signRule_iff (a b : Word) :
    a.getLsbD 31 ≠ b.getLsbD 31 ∧ (a - b).getLsbD 31 ≠ a.getLsbD 31 ↔
      a.toInt - b.toInt < -2 ^ 31 ∨ 2 ^ 31 ≤ a.toInt - b.toInt := by
  obtain ⟨k, hk⟩ := toInt_sub_eq a b
  have ha := toInt_bounds a
  have hb := toInt_bounds b
  have hd := toInt_bounds (a - b)
  simp only [ne_eq, sign_eq_iff]
  omega

section SubFlags

variable (a b f : Word)

theorem isCarry_subFlags : isCarry (subFlags a b f) = true ↔ a.toNat < b.toNat := by
  rw [isCarry, getLsbD_subFlags, if_neg (by decide), if_neg (by decide), if_neg (by decide), if_pos rfl,
    decide_eq_true_eq]

theorem isZero_subFlags : isZero (subFlags a b f) = true ↔ a = b := by
  rw [isZero, getLsbD_subFlags, if_neg (by decide), if_neg (by decide), if_pos rfl, beq_iff_eq,
    show 0#32 = (0 : Word) from rfl, sub_eq_zero]

theorem isSign_subFlags : isSign (subFlags a b f) = (a - b).getLsbD 31 := by
  rw [isSign, getLsbD_subFlags, if_neg (by decide), if_pos rfl]

theorem isOverflow_subFlags : isOverflow (subFlags a b f) = true ↔
    a.getLsbD 31 ≠ b.getLsbD 31 ∧ (a - b).getLsbD 31 ≠ a.getLsbD 31 := by
  rw [isOverflow, getLsbD_subFlags, if_pos rfl, Bool.and_eq_true, bne_iff_ne, bne_iff_ne]

theorem subtractionFlags_subFlags : SubtractionFlags a b f (subFlags a b f) := by
  refine ⟨isCarry_subFlags a b f, isZero_subFlags a b f, ?_,
    (isOverflow_subFlags a b f).trans (signRule_iff a b), fun k h0 h6 h7 h11 => ?_⟩
  · rw [← getLsbD_31_iff, ← isSign_subFlags a b f]
    rfl
  · rw [getLsbD_subFlags, if_neg h11, if_neg h7, if_neg h6, if_neg h0]

/-- After a subtraction SF differs from OF exactly when the signed comparison holds (R127). -/
theorem less_subFlags : isSign (subFlags a b f) ≠ isOverflow (subFlags a b f) ↔ a.toInt < b.toInt := by
  obtain ⟨k, hk⟩ := toInt_sub_eq a b
  have ha := toInt_bounds a
  have hb := toInt_bounds b
  have hd := toInt_bounds (a - b)
  rw [ne_eq, Bool.eq_iff_iff, isOverflow_subFlags, signRule_iff, isSign_subFlags, getLsbD_31_iff]
  omega

end SubFlags

/-- Settles O39: the bits of the routine's result, and the sign-bit rule as a statement over the
integers. -/
theorem subFlagsOfEveryPair : Obligations.SubFlagsOfEveryPair := by
  unfold Obligations.SubFlagsOfEveryPair
  exact fun a b f => ⟨subtractionFlags_subFlags a b f, isSign_subFlags a b f, isOverflow_subFlags a b f⟩

/-- Settles O40: `LE` is `L` or equality. -/
theorem conditionsCompareAfterSubtraction : Obligations.ConditionsCompareAfterSubtraction := by
  unfold Obligations.ConditionsCompareAfterSubtraction
  intro a b f
  have hless : condHolds .l (subFlags a b f) = true ↔ a.toInt < b.toInt := by
    rw [condHolds, bne_iff_ne, less_subFlags]
  refine ⟨hless, ?_, isCarry_subFlags a b f, isZero_subFlags a b f⟩
  rw [condHolds, Bool.or_eq_true, bne_iff_ne, less_subFlags, isZero_subFlags, ← BitVec.toInt_inj]
  omega

end Sys2Proof.Claims

/-! # Data movement and arithmetic (40_data_movement.md, 41_arithmetic.md) -/

namespace Sys2Proof.Claims

open Sys2Proof.Machine Host.Outcome

/-! ## Instructions that write their operand -/

/-- What was written to an operand does not depend on the parts of the state outside registers and
memory. -/
theorem operandWritten_congr {rm : RM} {v : Word} {s t u : State} (hregs : u.regs = t.regs)
    (hmem : u.mem = t.mem) (h : OperandWritten rm v s t) : OperandWritten rm v s u := by
  have hreg : u.reg = t.reg := funext fun r => congrArg (Regs.get · r) hregs
  cases rm with
  | reg d =>
    simp only [OperandWritten, RegsKept, BytesKept, hreg, hmem] at h ⊢
    exact h
  | mem m =>
    simp only [OperandWritten, RegsKept, BytesKeptOutside, hreg, hmem] at h ⊢
    exact h

/-- An instruction that ends with the write of an accessible operand. -/
theorem next_of_writeRM {x : BitVec 3} {rm : RM} {s : State} (v len : Word) (h : Accessible rm s) :
    ∃ t, outcomeOf (writeRM x rm v s >>= fun u => .ok (u.advanceEip len)) = next t ∧
      OperandWritten rm v s t ∧ t.eip = s.eip + len ∧ t.eflags = s.eflags ∧ HostKept s t := by
  obtain ⟨u, hu, hwritten, heip, heflags, hhost⟩ := writeRM_of_accessible (x := x) v h
  exact ⟨u.advanceEip len, by rw [hu, ok_bind, outcomeOf_ok], operandWritten_congr rfl rfl hwritten,
    congrArg (· + len) heip, heflags, hhost⟩

/-- Settles O34: both instructions are the write of an accessible operand. -/
theorem movWritesOperand : Obligations.MovWritesOperand := by
  unfold Obligations.MovWritesOperand
  exact fun rm r imm s h => ⟨next_of_writeRM (s.reg r) _ h, next_of_writeRM imm _ h⟩

/-- Settles O35: the operand is read from the old state, and then the destination is set. -/
theorem movLoadsOperand : Obligations.MovLoadsOperand := by
  unfold Obligations.MovLoadsOperand
  intro r rm v s h hv
  have hexec : exec (.movRRm r rm) s = next ((s.setReg r v).advanceEip (BitVec.ofNat 32 (2 + rm.extra))) := by
    rw [exec, execMovRRm, readRM_of_holds h hv, ok_bind, outcomeOf_ok]
  exact ⟨_, hexec, State.setReg_reg_same s r v, regsKept_setReg s r v, ⟨rfl, fun _ => rfl⟩, rfl, rfl,
    rfl, rfl, rfl, rfl⟩

/-! ## Sums and differences of operands -/

theorem add_eq_ofNat (a b : Word) : a + b = BitVec.ofNat 32 (a.toNat + b.toNat) := by
  rw [BitVec.ofNat_add, BitVec.ofNat_toNat, BitVec.ofNat_toNat, BitVec.setWidth_eq, BitVec.setWidth_eq]

theorem sext32_eq_ofInt (d : Byte) : sext32 d = BitVec.ofInt 32 d.toInt := by
  rw [← toInt_signExtend, BitVec.ofInt_toInt]
  rfl

theorem add_sext32_eq_ofInt (a : Word) (d : Byte) :
    a + sext32 d = BitVec.ofInt 32 (a.toNat + d.toInt) := by
  rw [BitVec.ofInt_add, BitVec.ofInt_natCast, BitVec.ofNat_toNat, BitVec.setWidth_eq, sext32_eq_ofInt]

theorem sub_sext32_eq_ofInt (a : Word) (d : Byte) :
    a - sext32 d = BitVec.ofInt 32 (a.toNat - d.toInt) := by
  rw [Int.sub_eq_add_neg, BitVec.ofInt_add, BitVec.ofInt_neg, BitVec.ofInt_natCast, BitVec.ofNat_toNat,
    BitVec.setWidth_eq, ← sext32_eq_ofInt, BitVec.sub_eq_add_neg]

/-- Settles O36: the operand is read, and the sum is written to it. -/
theorem addAndIncWrapAndWriteNoFlag : Obligations.AddAndIncWrapAndWriteNoFlag := by
  unfold Obligations.AddAndIncWrapAndWriteNoFlag
  intro rm r imm v s h hv
  have hread (x : BitVec 3) : readRM x rm s = .ok v := readRM_of_holds h hv
  refine ⟨?_, ?_, ?_⟩
  · rw [exec, execAddRmR, hread, ok_bind, add_eq_ofNat]
    exact next_of_writeRM _ _ h
  · rw [exec, execAddRmImm8, hread, ok_bind, add_sext32_eq_ofInt]
    exact next_of_writeRM _ _ h
  · rw [exec, execIncRm, hread, ok_bind, add_eq_ofNat]
    exact next_of_writeRM _ _ h

/-- Settles O37: the operand is read, the difference is written to it, and the flags are those of the
routine. -/
theorem subWritesDifferenceAndFlags : Obligations.SubWritesDifferenceAndFlags := by
  unfold Obligations.SubWritesDifferenceAndFlags
  intro rm imm v s h hv
  obtain ⟨u, hu, hwritten, heip, heflags, hhost⟩ :=
    writeRM_of_accessible (x := 5#3) (v - sext32 imm) h
  have hexec : exec (.subRmImm8 rm imm) s =
      next ((u.updateSubFlags v (sext32 imm)).advanceEip (BitVec.ofNat 32 (3 + rm.extra))) := by
    rw [exec, execSubRmImm8, readRM_of_holds h hv, ok_bind, hu, ok_bind, outcomeOf_ok]
  refine ⟨_, hexec, ?_, ?_, congrArg (· + _) heip, hhost⟩
  · rw [← sub_sext32_eq_ofInt]
    exact operandWritten_congr rfl rfl hwritten
  · rw [← heflags]
    exact subtractionFlags_subFlags v (sext32 imm) u.eflags

/-- Settles O38: the operand is read, and the flags are those of the routine. -/
theorem cmpWritesOnlyFlags : Obligations.CmpWritesOnlyFlags := by
  unfold Obligations.CmpWritesOnlyFlags
  intro rm imm v s h hv
  have hexec : exec (.cmpRmImm8 rm imm) s =
      next ((s.updateSubFlags v (sext32 imm)).advanceEip (BitVec.ofNat 32 (3 + rm.extra))) := by
    rw [exec, execCmpRmImm8, readRM_of_holds h hv, ok_bind, outcomeOf_ok]
  exact ⟨_, hexec, fun _ _ => rfl, ⟨rfl, fun _ => rfl⟩, subtractionFlags_subFlags v (sext32 imm) s.eflags,
    rfl, rfl, rfl, rfl, rfl⟩

/-! ## MOV r32, imm32 -/

/-- The opcode byte of a `+r` family is a sum (R71). -/
theorem plusR_mov (r : Reg) : plusR 0b10111#5 r = BitVec.ofNat 8 (0xB8 + r.field.toNat) := by
  cases r <;> rfl

/-- Settles O33: the write of the register, and the four-byte fetch that memory cuts short. -/
theorem movImmediateToRegister : Obligations.MovImmediateToRegister := by
  unfold Obligations.MovImmediateToRegister
  refine fun r imm s => ⟨congrArg (· :: bytes32 imm) (plusR_mov r),
    ⟨_, rfl, State.setReg_reg_same s r imm, regsKept_setReg s r imm, ⟨rfl, fun _ => rfl⟩, rfl, rfl, rfl,
      rfl, rfl, rfl⟩, fun hr hb hshort hbyte => ?_⟩
  obtain ⟨rest, hw, hlen⟩ := fetchWindow_cons hb
  rw [maxLength] at hlen
  have hfetch : fetch32 ⟨1, rest⟩ = .error (.truncated 1 4) :=
    fetch32_short (show rest.length < 4 by omega)
  refine step_of_dispatchOp_error (e := .truncated 1 4) hr hb hw ?_
  rw [hbyte, ← plusR_mov, dispatchOp_movRImm32, formatI32, hfetch, error_bind]

end Sys2Proof.Claims

/-! # The stack (42_stack.md, 43_control_transfer.md rules R173 and R174)

A push and a pop are said once, with their frame. Each stack instruction is one of them with an end that
moves EIP or writes a register. -/

namespace Sys2Proof.Claims

open Sys2Proof.Machine Host.Outcome

/-! ## Pushes -/

/-- A push whose slot lies in memory succeeds, and changes ESP and the slot only. -/
theorem push32_of_fits {s : State} (v : Word) (h : PushFits s) :
    ∃ t, push32 v s = .ok t ∧ Pushed v s t ∧ t.eip = s.eip ∧ t.eflags = s.eflags ∧ HostKept s t :=
  ⟨_, push32_ok.2 ⟨h, rfl⟩,
    ⟨State.setReg_reg_same s .esp _, regsKept_setReg s .esp _, storedAt_setWord .., Memory.setWord_size ..,
      fun _ hb => Memory.byte_setWord_outside _ _ hb⟩,
    rfl, rfl, rfl, rfl, rfl, rfl⟩

/-- A push instruction of `len` bytes. -/
theorem next_of_push32 {s : State} (v len : Word) (h : PushFits s) :
    ∃ t, outcomeOf (push32 v s >>= fun u => .ok (u.advanceEip len)) = next t ∧ Pushed v s t ∧
      t.eip = s.eip + len ∧ t.eflags = s.eflags ∧ HostKept s t := by
  obtain ⟨u, hu, hpushed, heip, heflags, hhost⟩ := push32_of_fits v h
  exact ⟨u.advanceEip len, by rw [hu, ok_bind, outcomeOf_ok], hpushed, congrArg (· + len) heip, heflags,
    hhost⟩

theorem pushImm8Value_of_sign (b : Byte) (h : Config.pushImm8Ext = .sign) :
    pushImm8Value b = b.signExtend 32 := by
  rw [pushImm8Value, h, widenImm8_sign]

theorem pushImm8Value_of_zero (b : Byte) (h : Config.pushImm8Ext = .zero) :
    pushImm8Value b = b.setWidth 32 := by
  rw [pushImm8Value, h, widenImm8_zero]

/-- Below 0x80 the setting does not matter. -/
theorem pushImm8Value_of_lt (b : Byte) (h : b.toNat < 0x80) :
    pushImm8Value b = BitVec.ofNat 32 b.toNat := by
  have hmsb : b.msb = false := by
    rw [BitVec.msb_eq_decide, decide_eq_false_iff_not]
    omega
  rw [pushImm8Value, widenImm8, hmsb, Bool.false_and, if_neg (by decide), zext32, BitVec.ofNat_toNat]

/-- Settles O41: each of the three is a push, of the value that it names. -/
theorem pushStoresBelowEsp : Obligations.PushStoresBelowEsp := by
  unfold Obligations.PushStoresBelowEsp
  intro r i32 i8 s h
  obtain ⟨t, hexec, hpushed, hrest⟩ := next_of_push32 (pushImm8Value i8) 2#32 h
  refine ⟨next_of_push32 (s.reg r) 1#32 h, next_of_push32 i32 5#32 h, ⟨t, hexec, ?_, hrest⟩,
    fun hlt => ⟨t, hexec, pushImm8Value_of_lt i8 hlt ▸ hpushed⟩⟩
  cases hext : Config.pushImm8Ext with
  | sign => exact pushImm8Value_of_sign i8 hext ▸ hpushed
  | zero => exact pushImm8Value_of_zero i8 hext ▸ hpushed

/-- Settles O51: CALL is a push with a relative transfer behind it. -/
theorem callPushesReturnAddress : Obligations.CallPushesReturnAddress := by
  unfold Obligations.CallPushesReturnAddress
  intro rel s h
  obtain ⟨u, hu, hpushed, heip, heflags, hhost⟩ := push32_of_fits (s.eip + 5#32) h
  have hexec : exec (.callRel32 rel) s = next (u.jumpRelative 5#32 rel) := by
    rw [exec, execCallRel32, hu, ok_bind, outcomeOf_ok]
  exact ⟨_, hexec, hpushed, congrArg (· + 5#32 + rel) heip, heflags, hhost⟩

/-! ## Pops -/

/-- A pop of a slot that lies in memory and holds `v`. -/
theorem pop32_of_storedAt {s : State} {v : Word} (hb : (s.reg .esp).toNat + 4 ≤ s.mem.size)
    (hv : StoredAt s.mem (s.reg .esp).toNat v) :
    pop32 s = .ok (v, s.setReg .esp (s.reg .esp + 4#32)) :=
  pop32_ok.2 ⟨hb, (storedAt_iff ..).1 hv, rfl⟩

/-- Writing two registers one after the other leaves the others. -/
theorem regsKept_setReg_setReg (s : State) (q r : Reg) (v w : Word) :
    RegsKept [r, q] s ((s.setReg q v).setReg r w) := by
  intro p hp
  simp only [List.mem_cons, List.not_mem_nil, or_false, not_or] at hp
  obtain ⟨hr, hq⟩ := hp
  rw [State.setReg_reg_other _ _ hr, State.setReg_reg_other _ _ hq]

/-- Settles O42: the destination is written after ESP is incremented. -/
theorem popLoadsAndIncrements : Obligations.PopLoadsAndIncrements := by
  unfold Obligations.PopLoadsAndIncrements
  intro r v s hb hv
  have hexec : exec (.popR r) s =
      next (((s.setReg .esp (s.reg .esp + 4#32)).setReg r v).advanceEip 1#32) := by
    rw [exec, execPopR, pop32_of_storedAt hb hv, ok_bind, outcomeOf_ok]
  refine ⟨_, hexec, State.setReg_reg_same _ r v, fun hr => ?_, regsKept_setReg_setReg s .esp r _ v,
    ⟨rfl, fun _ => rfl⟩, rfl, rfl, rfl, rfl, rfl, rfl⟩
  rw [State.advanceEip_reg, State.setReg_reg_other _ _ hr.symm, State.setReg_reg_same]

/-- An instruction whose first access succeeds goes on with what the access answers. -/
theorem next_of_bind {α : Type} {y : Except Fault α} {g : α → Except Fault State} {a : α} {t : State}
    (hy : y = .ok a) (hg : g a = .ok t) : outcomeOf (y >>= g) = next t := by
  rw [hy, ok_bind, hg, outcomeOf_ok]

/-- With nothing before it that can fail, an access that fails is the fault of the instruction. -/
theorem fault_of_bind {α : Type} {y : Except Fault α} {g : α → Except Fault State} {f : Fault}
    (h : y = .error f) : outcomeOf (y >>= g) = fault f := by
  rw [h, error_bind, outcomeOf_error]

/-- Settles O43: LEAVE is a pop at the address in EBP. -/
theorem leaveRestoresFrame : Obligations.LeaveRestoresFrame := by
  unfold Obligations.LeaveRestoresFrame
  refine ⟨rfl, fun s v => ⟨fun hb hv => ?_, fun hout => ?_⟩⟩
  · have hpop : pop32 (s.setReg .esp (s.reg .ebp)) =
        .ok (v, (s.setReg .esp (s.reg .ebp)).setReg .esp (s.reg .ebp + 4#32)) := pop32_of_storedAt hb hv
    have hexec : exec .leave s = next ((((s.setReg .esp (s.reg .ebp)).setReg .esp
        (s.reg .ebp + 4#32)).setReg .ebp v).advanceEip 1#32) := next_of_bind hpop rfl
    refine ⟨_, hexec, State.setReg_reg_same _ .ebp v, rfl, fun q hq => ?_, ⟨rfl, fun _ => rfl⟩,
      rfl, rfl, rfl, rfl, rfl, rfl⟩
    simp only [List.mem_cons, List.not_mem_nil, or_false, not_or] at hq
    obtain ⟨hesp, hebp⟩ := hq
    rw [State.advanceEip_reg, State.setReg_reg_other _ _ hebp, State.setReg_reg_other _ _ hesp,
      State.setReg_reg_other _ _ hesp]
  · exact fault_of_bind (pop32_error.2 ⟨hout, rfl⟩)

/-- Settles O52: RET is a pop into EIP. -/
theorem retPopsEip : Obligations.RetPopsEip := by
  unfold Obligations.RetPopsEip
  refine ⟨rfl, fun bs => ?_, fun s v => ⟨fun hb hv => ?_, fun hout => ?_⟩⟩
  · rw [decode_cons]
    exact dispatchOp_of_not_registered (by decide)
  · have hexec : exec .ret s = next ((s.setReg .esp (s.reg .esp + 4#32)).setEip v) := by
      rw [exec, execRet, pop32_of_storedAt hb hv, ok_bind, outcomeOf_ok]
    refine ⟨_, hexec, rfl, State.setReg_reg_same s .esp _, regsKept_setReg s .esp _,
      ⟨rfl, fun _ => rfl⟩, rfl, ⟨rfl, rfl, rfl, rfl⟩, fun h0 => ?_, fun hexit hr => step_of_eip_outside hr hexit⟩
    rw [hexec, haltTest_next, State.setEip_eip, if_pos h0]
  · exact fault_of_bind (pop32_error.2 ⟨hout, rfl⟩)

/-! ## A push and a pop -/

/-- Settles O44: the popped slot is the one that was pushed, so ESP is back where it was. -/
theorem pushThenPopRestores : Obligations.PushThenPopRestores := by
  unfold Obligations.PushThenPopRestores
  intro r s hr hlow hhigh
  have hslot : (s.reg .esp - 4#32).toNat = (s.reg .esp).toNat - 4 := BitVec.toNat_sub_of_le hlow
  have hfits : PushFits s := by
    rw [PushFits, hslot]
    omega
  obtain ⟨t, ht, ⟨hesp, hregs, hstored, hsize, hbytes⟩, -, heflags, hrun, hinput, hconsumed, houtput⟩ :=
    next_of_push32 (s.reg r) 1#32 hfits
  rw [hslot] at hstored hbytes
  have hfits' : (t.reg .esp).toNat + 4 ≤ t.mem.size := by
    rw [hesp, hsize]
    exact hfits
  have hstored' : StoredAt t.mem (t.reg .esp).toNat (s.reg r) := by
    rw [hesp, hslot]
    exact hstored
  obtain ⟨u, hu, hur, hur', hregs', ⟨hsize', hbytes'⟩, -, heflags', hrun', hinput', hconsumed',
    houtput'⟩ := popLoadsAndIncrements r (s.reg r) t hfits' hstored'
  refine ⟨t, u, ht, hu, fun q _ => ?_, ?_,
    ⟨hsize'.trans hsize, fun b hb => (hbytes' b).trans (hbytes b hb)⟩, heflags'.trans heflags, hrun'.trans hrun, hinput'.trans hinput, hconsumed'.trans hconsumed,
    houtput'.trans houtput⟩
  · by_cases hqr : q = r
    · rw [hqr, hur]
    · by_cases hq : q = .esp
      · rw [hq, hur' hr, hesp, BitVec.sub_add_cancel]
      · rw [hregs' q (by simp [hqr, hq]), hregs q (by simp [hq])]
  · simp only [StoredAt, hbytes']
    exact hstored

/-! ## Slots outside memory -/

/-- Settles O45: the access to the slot fails, and below 4 the decremented ESP wraps to the top of the
address space. -/
theorem stackSlotOutsideMemoryIsFatal : Obligations.StackSlotOutsideMemoryIsFatal := by
  unfold Obligations.StackSlotOutsideMemoryIsFatal
  refine fun r i32 i8 s => ⟨fun hout i hi => ?_, fun hout i hi => ?_, fun hlow hsize => ?_⟩
  · have hpush (v : Word) : push32 v s = .error (.boundsError s.eip (s.reg .esp - 4#32).toNat 4) :=
      push32_error.2 ⟨hout, rfl⟩
    simp only [List.mem_cons, List.not_mem_nil, or_false] at hi
    rcases hi with rfl | rfl | rfl | rfl <;> exact fault_of_bind (hpush _)
  · have hpop : pop32 s = .error (.boundsError s.eip (s.reg .esp).toNat 4) := pop32_error.2 ⟨hout, rfl⟩
    simp only [List.mem_cons, List.not_mem_nil, or_false] at hi
    rcases hi with rfl | rfl <;> exact fault_of_bind hpop
  · rw [BitVec.toNat_sub, BitVec.toNat_ofNat]
    omega

end Sys2Proof.Claims

/-! # Operands that are fatal (60_exceptions.md rules R192 and R196) -/

namespace Sys2Proof.Claims

open Sys2Proof.Machine Host.Outcome

section ModRM

variable {rm : RM} {r : Reg} {i8 : Byte} {i32 : Word} {p : BitVec 3 × Instr}

/-- Each of the eight instructions starts its work with an access to its operand. -/
theorem exec_of_operand_error {s : State} {f : Fault} (hp : p ∈ modrmInstrs rm r i8 i32)
    (hread : readRM p.1 rm s = .error f) (hwrite : ∀ v, writeRM p.1 rm v s = .error f) :
    exec p.2 s = fault f := by
  simp only [modrmInstrs, List.mem_cons, List.not_mem_nil, or_false] at hp
  rcases hp with rfl | rfl | rfl | rfl | rfl | rfl | rfl | rfl
  -- the two MOV that write their operand
  case inr.inl | inr.inr.inr.inl => exact fault_of_bind (hwrite _)
  all_goals exact fault_of_bind hread

/-- The second byte of the encoding is the ModR/M byte. -/
theorem encode_modrm (hp : p ∈ modrmInstrs rm r i8 i32) : (encode p.2)[1]? = some (rm.modrm p.1) := by
  simp only [modrmInstrs, List.mem_cons, List.not_mem_nil, or_false] at hp
  rcases hp with rfl | rfl | rfl | rfl | rfl | rfl | rfl | rfl <;> rfl

end ModRM

theorem operandAddress_of_sib {m : MemOp} {sib d8 : Byte} {d32 : Word} (s : State)
    (h : m ∈ [MemOp.sib sib, .sibDisp8 sib d8, .sibDisp32 sib d32]) : operandAddress m s = none := by
  simp only [List.mem_cons, List.not_mem_nil, or_false] at h
  rcases h with rfl | rfl | rfl <;> rfl

/-- Settles O46: an operand with a SIB byte has no address. -/
theorem sibOperandIsFatal : Obligations.SibOperandIsFatal := by
  unfold Obligations.SibOperandIsFatal
  intro m sib d8 d32 r i8 i32 s hm p hp
  have haddr : operandAddress m s = none := operandAddress_of_sib s hm
  exact ⟨exec_of_operand_error hp (readRM_mem_error.2 (.inl ⟨haddr, rfl⟩))
    fun _ => writeRM_mem_error.2 (.inl ⟨haddr, rfl⟩), encode_modrm hp, modrm_of_no_address p.1 haddr⟩

/-- Settles O47: neither the read nor the write of the operand lies in memory. -/
theorem operandOutsideMemoryIsFatal : Obligations.OperandOutsideMemoryIsFatal := by
  unfold Obligations.OperandOutsideMemoryIsFatal
  intro m a r i8 i32 s haddr hout p hp
  exact exec_of_operand_error hp (readRM_mem_error.2 (.inr ⟨a, haddr, hout, rfl⟩))
    fun _ => writeRM_mem_error.2 (.inr ⟨a, haddr, hout, rfl⟩)

end Sys2Proof.Claims

/-! # Control transfer (43_control_transfer.md) -/

namespace Sys2Proof.Claims

open Sys2Proof.Machine Host.Outcome

section Conditional

variable {rel : Byte} {f : Word} {j : Byte × Instr × Bool}

theorem encode_conditionalJump (hj : j ∈ conditionalJumps rel f) : encode j.2.1 = [j.1, rel] := by
  simp only [conditionalJumps, List.mem_cons, List.not_mem_nil, or_false] at hj
  rcases hj with rfl | rfl | rfl | rfl | rfl | rfl | rfl | rfl | rfl | rfl <;> rfl

/-- The handler of each of the ten opcode bytes fetches one byte. -/
theorem dispatchOp_conditionalJump (hj : j ∈ conditionalJumps rel f) (p : Nat) :
    dispatchOp j.1 ⟨p, []⟩ = .error (.truncated p 1) := by
  simp only [conditionalJumps, List.mem_cons, List.not_mem_nil, or_false] at hj
  rcases hj with rfl | rfl | rfl | rfl | rfl | rfl | rfl | rfl | rfl | rfl <;> rfl

end Conditional

/-- Settles O48: every conditional jump is the common rule with its own predicate. -/
theorem conditionalJumpsTestTheirFlags : Obligations.ConditionalJumpsTestTheirFlags := by
  unfold Obligations.ConditionalJumpsTestTheirFlags
  exact fun rel s j hj => ⟨encode_conditionalJump hj, _, exec_conditionalJump hj, rfl, fun _ _ => rfl,
    ⟨rfl, fun _ => rfl⟩, rfl, rfl, rfl, rfl, rfl⟩

/-- Settles O49: the fetch window is the opcode byte alone, and the handler fetches a byte behind it. -/
theorem conditionalJumpAtEndOfMemoryIsFatal : Obligations.ConditionalJumpAtEndOfMemoryIsFatal := by
  unfold Obligations.ConditionalJumpAtEndOfMemoryIsFatal
  intro rel s j hj hr hend hbyte
  have hb : s.eip.toNat < s.mem.size := by omega
  obtain ⟨rest, hw, hlen⟩ := fetchWindow_cons hb
  obtain rfl : rest = [] := List.length_eq_zero_iff.1 (by rw [maxLength] at hlen; omega)
  refine step_of_dispatchOp_error (e := .truncated 1 1) hr hb hw ?_
  rw [hbyte, dispatchOp_conditionalJump hj]

/-- Settles O50: every relative target is a sum of words. -/
theorem relativeTargetsAreSigned : Obligations.RelativeTargetsAreSigned := by
  unfold Obligations.RelativeTargetsAreSigned
  intro d8 d32 s
  have htarget8 : ((s.eip + 2#32 + d8.signExtend 32).toNat : Int) = (s.eip.toNat + 2 + d8.toInt) % 2 ^ 32 := by
    rw [toNat_target, toInt_signExtend]
    rfl
  have htarget32 : ((s.eip + 5#32 + d32).toNat : Int) = (s.eip.toNat + 5 + d32.toInt) % 2 ^ 32 :=
    toNat_target ..
  refine ⟨⟨_, rfl, htarget8, fun _ _ => rfl, ⟨rfl, fun _ => rfl⟩, rfl, rfl, rfl, rfl, rfl⟩,
    ⟨_, rfl, htarget32, fun _ _ => rfl, ⟨rfl, fun _ => rfl⟩, rfl, rfl, rfl, rfl, rfl⟩,
    fun t h => ?_, fun j hj htaken t h => ?_⟩
  · have heip : t.eip = s.eip + 5#32 + d32 := eipAfterInstruction.2 (.callRel32 d32) s t h
    rw [heip, htarget32]
  · rw [exec_conditionalJump hj, htaken, if_pos rfl, next.injEq] at h
    rw [← h, State.setEip_eip, htarget8]

end Sys2Proof.Claims

/-! # IN (60_exceptions.md rules R205 and R207) -/

namespace Sys2Proof.Claims

open Sys2Proof.Machine Host.Outcome

theorem lo8_withLo8 (v : Word) (b : Byte) : (withLo8 v b).extractLsb' 0 8 = b := by
  apply BitVec.eq_of_getLsbD_eq
  intro i hi
  simp only [withLo8, BitVec.getLsbD_extractLsb', BitVec.getLsbD_append]
  simp [hi]

theorem high_withLo8 (v : Word) (b : Byte) : (withLo8 v b).extractLsb' 8 24 = v.extractLsb' 8 24 := by
  apply BitVec.eq_of_getLsbD_eq
  intro i hi
  simp only [withLo8, BitVec.getLsbD_extractLsb', BitVec.getLsbD_append]
  simp [hi]

/-- Settles O53: the three answers of the port read, and AL as the low byte of EAX. -/
theorem inReadsPortByte : Obligations.InReadsPortByte := by
  unfold Obligations.InReadsPortByte
  refine fun s => ⟨fun hlive b hb => ?_, fun hlive hnone => ?_, fun hother => ?_⟩
  · have hport : portIn (lo16 (s.reg .edx)) s = some (b, { s with consumed := s.consumed + 1 }) :=
      portIn_some.2 (.inl ⟨hlive, hb, rfl⟩)
    exact ⟨_, exec_inAlDx_next.2 ⟨b, _, hport, rfl⟩, lo8_withLo8 (s.reg .eax) b,
      high_withLo8 (s.reg .eax) b, regsKept_setReg s .eax _, ⟨rfl, fun _ => rfl⟩, rfl, rfl, rfl, rfl, rfl, rfl⟩
  · have hempty : s.input.length ≤ s.consumed := List.getElem?_eq_none_iff.1 hnone
    exact exec_inAlDx_refused.2 ⟨portIn_none.2 ⟨hlive, hempty⟩, rfl⟩
  · have hport : portIn (lo16 (s.reg .edx)) s = some (0#8, s) := portIn_some.2 (.inr ⟨hother, rfl, rfl⟩)
    exact ⟨_, exec_inAlDx_next.2 ⟨0#8, s, hport, rfl⟩, lo8_withLo8 (s.reg .eax) 0#8,
      high_withLo8 (s.reg .eax) 0#8, regsKept_setReg s .eax _, ⟨rfl, fun _ => rfl⟩, rfl, rfl, rfl, rfl,
      rfl, rfl⟩

end Sys2Proof.Claims
